-- ==== Sys2Proof/Word.lean ====
section
/-! DEFINITION. The machine's bit-vector types: the widths the spec fixes (00_scope.md R9, R13, R18).
Every value is unsigned; arithmetic on these types wraps modulo two to the width (43_alu.md R80, 10_state.md R24). -/

namespace Sys2Proof

/-- An 8-bit value: a general register, a timer, a byte of memory, an immediate `NN`. -/
abbrev Byte := BitVec 8

/-- A 16-bit value: `PC`, `I`, a stack entry, an opcode. -/
abbrev Word := BitVec 16

/-- A 4-bit field: a register index `X` or `Y`, or the row count `N`. -/
abbrev Nibble := BitVec 4

/-- A 12-bit field: an address `NNN`. -/
abbrev Addr12 := BitVec 12

end Sys2Proof
end

