-- ==== Sys2Proof/Syntax.lean ====
section
/-! DEFINITION. The instructions: one constructor for each row of spec/opcode_table.json, in the table's order.
An operand has exactly the width of its field (30_encoding.md R53, R54), and every value of a field is legal. -/

namespace Sys2Proof

/-- The 34 instructions of 30_encoding.md R57. `x`, `y`, `n`, `nn`, `nnn` are the fields X, Y, N, NN, NNN of
00_scope.md R18. `shr` and `shl` keep the field Y that their opcode holds and that they ignore (43_alu.md R90, R92). -/
inductive Instr where
  | cls                                     -- 00E0
  | ret                                     -- 00EE
  | jp (nnn : Addr12)                       -- 1NNN
  | call (nnn : Addr12)                     -- 2NNN
  | seImm (x : Nibble) (nn : Byte)          -- 3XNN
  | sneImm (x : Nibble) (nn : Byte)         -- 4XNN
  | seReg (x y : Nibble)                    -- 5XY0
  | ldImm (x : Nibble) (nn : Byte)          -- 6XNN
  | addImm (x : Nibble) (nn : Byte)         -- 7XNN
  | ldReg (x y : Nibble)                    -- 8XY0
  | orReg (x y : Nibble)                    -- 8XY1
  | andReg (x y : Nibble)                   -- 8XY2
  | xorReg (x y : Nibble)                   -- 8XY3
  | addReg (x y : Nibble)                   -- 8XY4
  | subReg (x y : Nibble)                   -- 8XY5
  | shr (x y : Nibble)                      -- 8XY6
  | subnReg (x y : Nibble)                  -- 8XY7
  | shl (x y : Nibble)                      -- 8XYE
  | sneReg (x y : Nibble)                   -- 9XY0
  | ldI (nnn : Addr12)                      -- ANNN
  | jpV0 (nnn : Addr12)                     -- BNNN
  | rnd (x : Nibble) (nn : Byte)            -- CXNN
  | drw (x y n : Nibble)                    -- DXYN
  | skp (x : Nibble)                        -- EX9E
  | sknp (x : Nibble)                       -- EXA1
  | ldVxDt (x : Nibble)                     -- FX07
  | ldVxK (x : Nibble)                      -- FX0A
  | ldDtVx (x : Nibble)                     -- FX15
  | ldStVx (x : Nibble)                     -- FX18
  | addI (x : Nibble)                       -- FX1E
  | ldF (x : Nibble)                        -- FX29
  | ldB (x : Nibble)                        -- FX33
  | ldMemVx (x : Nibble)                    -- FX55
  | ldVxMem (x : Nibble)                    -- FX65
  deriving DecidableEq, Repr

end Sys2Proof
end

