-- ==== Sys2Proof/WellFormed.lean ====
section
/-! DEFINITION. When an instruction is well-formed: every operand lies in the range of its field (30_encoding.md R53, R54).
The operand types have exactly the fields' widths, so every term of Instr passes; the checks are written on numbers,
where they can fail. -/

namespace Sys2Proof

/-- A register index or a row count: 0–15 (30_encoding.md R54). -/
def nibbleInRange (n : Nat) : Bool := n < 16

/-- An immediate `NN`: 0–255. -/
def byteInRange (n : Nat) : Bool := n < 256

/-- An address `NNN`: 0x000–0xFFF. -/
def addrInRange (n : Nat) : Bool := n < 4096

/-- Every operand of the instruction is in its field's range. -/
def Instr.wellFormed : Instr → Bool
  | .cls => true
  | .ret => true
  | .jp nnn => addrInRange nnn.toNat
  | .call nnn => addrInRange nnn.toNat
  | .seImm x nn => nibbleInRange x.toNat && byteInRange nn.toNat
  | .sneImm x nn => nibbleInRange x.toNat && byteInRange nn.toNat
  | .seReg x y => nibbleInRange x.toNat && nibbleInRange y.toNat
  | .ldImm x nn => nibbleInRange x.toNat && byteInRange nn.toNat
  | .addImm x nn => nibbleInRange x.toNat && byteInRange nn.toNat
  | .ldReg x y => nibbleInRange x.toNat && nibbleInRange y.toNat
  | .orReg x y => nibbleInRange x.toNat && nibbleInRange y.toNat
  | .andReg x y => nibbleInRange x.toNat && nibbleInRange y.toNat
  | .xorReg x y => nibbleInRange x.toNat && nibbleInRange y.toNat
  | .addReg x y => nibbleInRange x.toNat && nibbleInRange y.toNat
  | .subReg x y => nibbleInRange x.toNat && nibbleInRange y.toNat
  | .shr x y => nibbleInRange x.toNat && nibbleInRange y.toNat
  | .subnReg x y => nibbleInRange x.toNat && nibbleInRange y.toNat
  | .shl x y => nibbleInRange x.toNat && nibbleInRange y.toNat
  | .sneReg x y => nibbleInRange x.toNat && nibbleInRange y.toNat
  | .ldI nnn => addrInRange nnn.toNat
  | .jpV0 nnn => addrInRange nnn.toNat
  | .rnd x nn => nibbleInRange x.toNat && byteInRange nn.toNat
  | .drw x y n => nibbleInRange x.toNat && nibbleInRange y.toNat && nibbleInRange n.toNat
  | .skp x => nibbleInRange x.toNat
  | .sknp x => nibbleInRange x.toNat
  | .ldVxDt x => nibbleInRange x.toNat
  | .ldVxK x => nibbleInRange x.toNat
  | .ldDtVx x => nibbleInRange x.toNat
  | .ldStVx x => nibbleInRange x.toNat
  | .addI x => nibbleInRange x.toNat
  | .ldF x => nibbleInRange x.toNat
  | .ldB x => nibbleInRange x.toNat
  | .ldMemVx x => nibbleInRange x.toNat
  | .ldVxMem x => nibbleInRange x.toNat

end Sys2Proof
end

