-- ==== Sys2Proof/Decode.lean ====
section
/-! DEFINITION. Reading an opcode (30_encoding.md R53–R60) and, after it, writing one. `decode` is the loop of R59 over
the opcode map of R57; it is total and rejects by name. -/

namespace Sys2Proof

/-- Why bytes are not an instruction. `unrecognizedOpcode`: the opcode matches no row of R57 (R59, R60).
`tooFewBytes`: fewer than the two bytes every instruction has (R55). -/
inductive DecodeError where
  | unrecognizedOpcode (op : Word)
  | tooFewBytes
  deriving DecidableEq, Repr

/-- The opcode of two bytes: the byte at the lower address is the high byte (20_memory.md R44). -/
def opcodeOfBytes (hi lo : Byte) : Word := hi ++ lo

/-- The high byte of an opcode, which lies at the lower address (R44). -/
def opcodeHigh (op : Word) : Byte := op.extractLsb' 8 8

/-- The low byte of an opcode. -/
def opcodeLow (op : Word) : Byte := op.extractLsb' 0 8

/-- The family nibble `op[15:12]` (30_encoding.md R53). -/
def fieldFamily (op : Word) : Nibble := op.extractLsb' 12 4

/-- `X = op[11:8]` (00_scope.md R18). -/
def fieldX (op : Word) : Nibble := op.extractLsb' 8 4

/-- `Y = op[7:4]`. -/
def fieldY (op : Word) : Nibble := op.extractLsb' 4 4

/-- `N = op[3:0]`. -/
def fieldN (op : Word) : Nibble := op.extractLsb' 0 4

/-- `NN = op[7:0]`. -/
def fieldNN (op : Word) : Byte := op.extractLsb' 0 8

/-- `NNN = op[11:0]`. -/
def fieldNNN (op : Word) : Addr12 := op.extractLsb' 0 12

/-- One row of the opcode map: an opcode `op` matches it when `op & mask = pattern` (R57). -/
structure OpcodeRow where
  mask : Word
  pattern : Word
  build : Word → Instr

/-- `op & mask = match`. -/
def OpcodeRow.matchesOpcode (r : OpcodeRow) (op : Word) : Bool := op &&& r.mask == r.pattern

/-- A row with the operands X and NN. -/
def rowXNN (pattern : Word) (f : Nibble → Byte → Instr) : OpcodeRow :=
  ⟨0xF000#16, pattern, fun op => f (fieldX op) (fieldNN op)⟩

/-- A row with the operand NNN. -/
def rowNNN (pattern : Word) (f : Addr12 → Instr) : OpcodeRow :=
  ⟨0xF000#16, pattern, fun op => f (fieldNNN op)⟩

/-- A row with the operands X and Y and a fixed last digit. -/
def rowXY (pattern : Word) (f : Nibble → Nibble → Instr) : OpcodeRow :=
  ⟨0xF00F#16, pattern, fun op => f (fieldX op) (fieldY op)⟩

/-- A row with the operand X and two fixed last digits. -/
def rowX (pattern : Word) (f : Nibble → Instr) : OpcodeRow :=
  ⟨0xF0FF#16, pattern, fun op => f (fieldX op)⟩

/-- The opcode map of 30_encoding.md R57, in its order. -/
def opcodeMap : List OpcodeRow :=
  [⟨0xFFFF#16, 0x00E0#16, fun _ => .cls⟩,
   ⟨0xFFFF#16, 0x00EE#16, fun _ => .ret⟩,
   rowNNN 0x1000#16 .jp,
   rowNNN 0x2000#16 .call,
   rowXNN 0x3000#16 .seImm,
   rowXNN 0x4000#16 .sneImm,
   rowXY 0x5000#16 .seReg,
   rowXNN 0x6000#16 .ldImm,
   rowXNN 0x7000#16 .addImm] ++
  [rowXY 0x8000#16 .ldReg,
   rowXY 0x8001#16 .orReg,
   rowXY 0x8002#16 .andReg,
   rowXY 0x8003#16 .xorReg,
   rowXY 0x8004#16 .addReg,
   rowXY 0x8005#16 .subReg,
   rowXY 0x8006#16 .shr,
   rowXY 0x8007#16 .subnReg,
   rowXY 0x800E#16 .shl,
   rowXY 0x9000#16 .sneReg] ++
  [rowNNN 0xA000#16 .ldI,
   rowNNN 0xB000#16 .jpV0,
   rowXNN 0xC000#16 .rnd,
   ⟨0xF000#16, 0xD000#16, fun op => .drw (fieldX op) (fieldY op) (fieldN op)⟩,
   rowX 0xE09E#16 .skp,
   rowX 0xE0A1#16 .sknp] ++
  [rowX 0xF007#16 .ldVxDt,
   rowX 0xF00A#16 .ldVxK,
   rowX 0xF015#16 .ldDtVx,
   rowX 0xF018#16 .ldStVx,
   rowX 0xF01E#16 .addI,
   rowX 0xF029#16 .ldF,
   rowX 0xF033#16 .ldB,
   rowX 0xF055#16 .ldMemVx,
   rowX 0xF065#16 .ldVxMem]

/-- `Decode(op)` of 30_encoding.md R59: the first row that matches, or the unrecognized opcode. -/
def decode (op : Word) : Except DecodeError Instr :=
  match opcodeMap.find? (fun r => r.matchesOpcode op) with
  | some r => .ok (r.build op)
  | none => .error (.unrecognizedOpcode op)

/-- Decoding any bytes: the instruction of the first two and the bytes after it (R55). -/
def decodeBytes : List Byte → Except DecodeError (Instr × List Byte)
  | hi :: lo :: rest =>
    match decode (opcodeOfBytes hi lo) with
    | .ok i => .ok (i, rest)
    | .error e => .error e
  | _ => .error .tooFewBytes

/-- The opcode of an instruction, written from the encodings of spec/opcode_table.json. -/
def encode : Instr → Word
  | .cls => 0x00E0#16
  | .ret => 0x00EE#16
  | .jp nnn => 0x1#4 ++ nnn
  | .call nnn => 0x2#4 ++ nnn
  | .seImm x nn => 0x3#4 ++ x ++ nn
  | .sneImm x nn => 0x4#4 ++ x ++ nn
  | .seReg x y => 0x5#4 ++ x ++ y ++ 0x0#4
  | .ldImm x nn => 0x6#4 ++ x ++ nn
  | .addImm x nn => 0x7#4 ++ x ++ nn
  | .ldReg x y => 0x8#4 ++ x ++ y ++ 0x0#4
  | .orReg x y => 0x8#4 ++ x ++ y ++ 0x1#4
  | .andReg x y => 0x8#4 ++ x ++ y ++ 0x2#4
  | .xorReg x y => 0x8#4 ++ x ++ y ++ 0x3#4
  | .addReg x y => 0x8#4 ++ x ++ y ++ 0x4#4
  | .subReg x y => 0x8#4 ++ x ++ y ++ 0x5#4
  | .shr x y => 0x8#4 ++ x ++ y ++ 0x6#4
  | .subnReg x y => 0x8#4 ++ x ++ y ++ 0x7#4
  | .shl x y => 0x8#4 ++ x ++ y ++ 0xE#4
  | .sneReg x y => 0x9#4 ++ x ++ y ++ 0x0#4
  | .ldI nnn => 0xA#4 ++ nnn
  | .jpV0 nnn => 0xB#4 ++ nnn
  | .rnd x nn => 0xC#4 ++ x ++ nn
  | .drw x y n => 0xD#4 ++ x ++ y ++ n
  | .skp x => 0xE#4 ++ x ++ 0x9E#8
  | .sknp x => 0xE#4 ++ x ++ 0xA1#8
  | .ldVxDt x => 0xF#4 ++ x ++ 0x07#8
  | .ldVxK x => 0xF#4 ++ x ++ 0x0A#8
  | .ldDtVx x => 0xF#4 ++ x ++ 0x15#8
  | .ldStVx x => 0xF#4 ++ x ++ 0x18#8
  | .addI x => 0xF#4 ++ x ++ 0x1E#8
  | .ldF x => 0xF#4 ++ x ++ 0x29#8
  | .ldB x => 0xF#4 ++ x ++ 0x33#8
  | .ldMemVx x => 0xF#4 ++ x ++ 0x55#8
  | .ldVxMem x => 0xF#4 ++ x ++ 0x65#8

/-- The bytes of an instruction as they lie in memory, high byte first (R44). -/
def encodeBytes (i : Instr) : List Byte := [opcodeHigh (encode i), opcodeLow (encode i)]

/-- The opcode the host's number `w` of `nbits` bits stands for: bits at and above `nbits` are 0. The table numbers the
one 16-bit word with bit 0 its least significant bit. -/
def tableOpcode (nbits w : Nat) : Word := BitVec.ofNat 16 (w % 2 ^ nbits)

/-- The instruction the decoder reads from the table's word: the word is laid out as it lies in memory. -/
def decodeTableWord (nbits w : Nat) : Option Instr :=
  match decodeBytes [opcodeHigh (tableOpcode nbits w), opcodeLow (tableOpcode nbits w)] with
  | .ok (i, _) => some i
  | .error _ => none

end Sys2Proof
end

