-- ==== Sys2Proof/Config.lean ====
section
/-! DEFINITION. What is fixed for the machine but not stated by the spec: parameters and free values.
An `opaque` constant has no body a proof could see: whatever is proved holds for every value of it. -/

namespace Sys2Proof

/-- When the trace's snapshot is taken. 10_state.md R33: the source does not give "whether the snapshot is taken before
or after the instruction"; after the instruction can mean before or after the step's tick. -/
inductive SnapshotTime where
  | beforeInstruction
  | afterInstruction
  | afterTick
  deriving DecidableEq, Repr, Inhabited

/-- `GLYPH_ROM` (00_scope.md R10, 92_eei_decisions.md D1): byte `a` of the glyph table, for `a` in 0–79.
A parameter of the hardware; assumption log 2. -/
opaque Config.glyphRom : Nat → Byte

/-- The free random byte of CXNN (00_scope.md R11, 43_alu.md R93): the byte of the `k`-th draw, under no law.
Assumption log 3. -/
opaque Config.randomByte : Nat → Byte

/-- When the trace's snapshot is taken (10_state.md R33): not stated. Assumption log 5. -/
opaque Config.traceTime : SnapshotTime

/-- The trace's mnemonic text (10_state.md R33): not stated. Assumption log 5. -/
opaque Config.traceText : Instr → String

/-- The default font of 93_implementation_defined.md G1, for tests and claims that name it; no definition of the
model uses it (92_eei_decisions.md D1). -/
def Config.defaultGlyphs : List Byte :=
  [0xF0, 0x90, 0x90, 0x90, 0xF0,  0x20, 0x60, 0x20, 0x20, 0x70] ++
  [0xF0, 0x10, 0xF0, 0x80, 0xF0,  0xF0, 0x10, 0xF0, 0x10, 0xF0] ++
  [0x90, 0x90, 0xF0, 0x10, 0x10,  0xF0, 0x80, 0xF0, 0x10, 0xF0] ++
  [0xF0, 0x80, 0xF0, 0x90, 0xF0,  0xF0, 0x10, 0x20, 0x40, 0x40] ++
  [0xF0, 0x90, 0xF0, 0x90, 0xF0,  0xF0, 0x90, 0xF0, 0x10, 0xF0] ++
  [0xF0, 0x90, 0xF0, 0x90, 0x90,  0xE0, 0x90, 0xE0, 0x90, 0xE0] ++
  [0xF0, 0x80, 0x80, 0x80, 0xF0,  0xE0, 0x90, 0x90, 0x90, 0xE0] ++
  [0xF0, 0x80, 0xF0, 0x80, 0xF0,  0xF0, 0x80, 0xF0, 0x80, 0x80]

/-- The hypothesis "GLYPH_ROM is the default font", by which a claim names its glyph table (D1). -/
def Config.UsesDefaultGlyphs : Prop := ∀ a, a < 80 → Config.glyphRom a = Config.defaultGlyphs.getD a 0

end Sys2Proof
end

