-- ==== Sys2Proof/Machine/State.lean ====
section
/-! DEFINITION. The machine's state: every piece 10_state.md section 1 lists (R34 says the list is complete), and the
model's own fields for a step's outputs and for the free draws. -/

namespace Sys2Proof.Machine

/-- The six kinds of fault of 60_exceptions.md R105. -/
inductive FaultKind where
  | unrecognizedOpcode
  | fetchOutOfRange
  | memoryOutOfRange
  | stackOverflow
  | stackUnderflow
  | keyIndexOutOfRange
  deriving DecidableEq, Repr

/-- The fault record `(kind, code, pc, opcode, info)` of 60_exceptions.md R107. The code is a function of the kind
(`FaultKind.code`), so it is not stored twice. `opcode` is absent when the fetch itself faults; `info` is the address,
the PC or the register value that R105 records, where it records one. -/
structure FaultRecord where
  kind : FaultKind
  pc : Word
  opcode : Option Word
  info : Option Nat
  deriving DecidableEq, Repr

/-- The trace's snapshot: "PC/I/SP/timers/registers/stack/keypad" (10_state.md R33). -/
structure Snapshot where
  pc : Word
  ireg : Word
  sp : Fin 17
  dt : Byte
  st : Byte
  regs : Vector Byte 16
  stack : Vector Word 16
  keys : Vector Bool 16
  deriving DecidableEq, Repr

/-- `last_instruction_trace` (10_state.md R33): the opcode, the decoded instruction with its operands, and the values
the snapshot may hold: `before` the instruction and when it was `executed`, before the tick (assumption log 5). -/
structure Trace where
  opcode : Word
  instr : Instr
  before : Snapshot
  executed : Snapshot
  deriving DecidableEq, Repr

/-- Memory as the list of its bytes that differ from their reset value, at strictly rising addresses below 0x1000
(`Memory.wf`). 20_memory.md R37; assumption log 6. -/
abbrev Memory := List Host.Cell

/-- The state of the core. -/
structure State where
  /-- `V[0..15]` (10_state.md R20). -/
  regs : Vector Byte 16
  /-- `I` (R23). -/
  ireg : Word
  /-- `PC` (R24). -/
  pc : Word
  /-- `S[0..15]` (R27). -/
  stack : Vector Word 16
  /-- `SP`, 0 to 16 (R28). -/
  sp : Fin 17
  /-- `DT` (R29). -/
  dt : Byte
  /-- `ST` (R29). -/
  st : Byte
  /-- `FB`: 32 rows of 64 one-bit cells, bit `col` of row `row` being `FB[row * 64 + col]` (R30). -/
  fb : Vector (BitVec 64) 32
  /-- `K[0..15]`, true when pressed (R31). -/
  keys : Vector Bool 16
  /-- `M` (20_memory.md R37). -/
  mem : Memory
  /-- The fault record (R32). -/
  fault : Option FaultRecord
  /-- `last_instruction_trace` (R33). -/
  trace : Option Trace
  /-- The model's own: the redraw signal the last step returned (60_exceptions.md R119; assumption log 4). -/
  redraw : Bool
  /-- The model's own: the tone signal the last step returned (R119; assumption log 4). -/
  tone : Bool
  /-- The model's own: how many random bytes have been drawn (assumption log 3). -/
  draws : Nat
  deriving DecidableEq, Repr

/-- Why a step is no step. -/
inductive Fault where
  /-- Raised by `step` alone, when the fault record is set: the core takes no further step (60_exceptions.md R108).
  Safe: the machine has stopped. The record is the diagnostic. -/
  | halted (record : FaultRecord)
  deriving DecidableEq, Repr

/-- Why an instruction has no meaning here. -/
inductive Refusal where
  /-- Raised by a refused arm of `exec`; no arm is refused, so nothing raises it. Safe: the model would stop where the
  hardware goes on. -/
  | notModelled (mnemonic : String)
  deriving DecidableEq, Repr

/-- The state after `Init` with the empty image (70_reset_and_hazards.md R128, R129). The glyph table is what memory
holds where nothing is listed. -/
def State.reset : State where
  regs := Vector.replicate 16 0#8
  ireg := 0#16
  pc := 0x200#16
  stack := Vector.replicate 16 0#16
  sp := 0
  dt := 0#8
  st := 0#8
  fb := Vector.replicate 32 0#64
  keys := Vector.replicate 16 false
  mem := []
  fault := none
  trace := none
  redraw := false
  tone := false
  draws := 0

end Sys2Proof.Machine
end

