-- ==== Sys2Proof/Machine/Ops.lean ====
section
/-! DEFINITION. The named operations over memory, registers, stack, framebuffer and keypad; taking a fault; the tick;
fetching; loading an image; and what a step does around an instruction. -/

namespace Sys2Proof.Machine

/-! ## Memory (20_memory.md) -/

/-- What an unlisted address holds: the reset contents without an image (20_memory.md R38, R39). -/
def Memory.background (a : Nat) : Byte := if a < 80 then Config.glyphRom a else 0#8

/-- The byte at `a` (R48). The range of `a` is checked by the accesses, not here. -/
def Memory.read : Memory → Nat → Byte
  | [], a => Memory.background a
  | (b, v) :: rest, a => if a = b then v else Memory.read rest a

/-- `(a, v)` before `rest`, left out when `v` is what an unlisted `a` holds. -/
def Memory.put (a : Nat) (v : Byte) (rest : Memory) : Memory :=
  if v = Memory.background a then rest else (a, v) :: rest

/-- Write the byte `v` at `a`, changing exactly one byte (R48) and keeping the canonical form. -/
def Memory.write : Memory → Nat → Byte → Memory
  | [], a, v => Memory.put a v []
  | (b, w) :: rest, a, v =>
    if a < b then Memory.put a v ((b, w) :: rest)
    else if a = b then Memory.put a v rest
    else (b, w) :: Memory.write rest a v

/-- Write the bytes at `a`, `a + 1`, … in order. -/
def Memory.writeBytes : Memory → Nat → List Byte → Memory
  | m, _, [] => m
  | m, a, v :: vs => Memory.writeBytes (m.write a v) (a + 1) vs

/-- The canonical form from address `lo` on: strictly rising addresses below 0x1000, no byte at its unlisted value. -/
def Memory.wfFrom : Nat → Memory → Bool
  | _, [] => true
  | lo, (a, v) :: rest =>
    decide (lo ≤ a) && decide (a < 4096) && decide (v ≠ Memory.background a) && Memory.wfFrom (a + 1) rest

/-- The canonical form: equal memories are equal lists. -/
def Memory.wf (m : Memory) : Bool := Memory.wfFrom 0 m

/-- The first of the addresses `base`, …, `base + n - 1` above 0xFFF, if there is one: the address that
`MemoryOutOfRange` records (R42, R43, 60_exceptions.md R109). The sum is not reduced. -/
def firstOutOfRange (base n : Nat) : Option Nat :=
  ((List.range n).map (base + ·)).find? (fun a => decide (0xFFF < a))

/-- Read `n` bytes from `base` on, or the first address out of range (R43, R46). -/
def Memory.readBlock (m : Memory) (base n : Nat) : Except Nat (List Byte) :=
  match firstOutOfRange base n with
  | some a => .error a
  | none => .ok ((List.range n).map (fun k => m.read (base + k)))

/-- Write the bytes from `base` on, all of them or none: every address is checked before the first write (R43,
60_exceptions.md R107). -/
def Memory.writeBlock (m : Memory) (base : Nat) (bytes : List Byte) : Except Nat Memory :=
  match firstOutOfRange base bytes.length with
  | some a => .error a
  | none => .ok (m.writeBytes base bytes)

/-! ## Registers (10_state.md R20) -/

/-- `V[x]`. -/
def State.v (s : State) (x : Nibble) : Byte := s.regs[x.toNat]'(x.isLt)

/-- `V[x] <- b`. -/
def State.setV (s : State) (x : Nibble) (b : Byte) : State := { s with regs := s.regs.set x.toNat b x.isLt }

/-- `V[k] <- b`, `V[k + 1] <- b'`, … for the listed bytes (44_index_memory.md R99). -/
def State.setVs : State → Nat → List Byte → State
  | s, _, [] => s
  | s, k, b :: bs => State.setVs (s.setV (BitVec.ofNat 4 k) b) (k + 1) bs

/-- `V[0]`, …, `V[x]` (44_index_memory.md R98). -/
def State.vsUpTo (s : State) (x : Nibble) : List Byte :=
  (List.range (x.toNat + 1)).map (fun k => s.v (BitVec.ofNat 4 k))

/-- `I <- w` (R23). -/
def State.setI (s : State) (w : Word) : State := { s with ireg := w }

/-- `DT <- b` (R29). -/
def State.setDt (s : State) (b : Byte) : State := { s with dt := b }

/-- `ST <- b` (R29). -/
def State.setSt (s : State) (b : Byte) : State := { s with st := b }

/-- The memory becomes `m`. -/
def State.setMem (s : State) (m : Memory) : State := { s with mem := m }

/-! ## Program counter (10_state.md R24) -/

/-- `PC <- w`. -/
def State.setPc (s : State) (w : Word) : State := { s with pc := w }

/-- `PC <- (PC + 2) mod 65536`. -/
def State.advance (s : State) : State := s.setPc (s.pc + 2#16)

/-- A skip: past this instruction, and past two more bytes when the condition holds (42_skip.md R73). -/
def State.skipIf (s : State) (c : Bool) : State := if c then s.advance.advance else s.advance

/-! ## Call stack (10_state.md R27, R28) -/

/-- `S[SP] <- w; SP <- SP + 1`, or none when 16 entries are in use. -/
def State.push (s : State) (w : Word) : Option State :=
  if h : s.sp.val < 16 then
    some { s with stack := s.stack.set s.sp.val w h, sp := ⟨s.sp.val + 1, by omega⟩ }
  else none

/-- `SP <- SP - 1`, with `S[SP]` for the new SP, or none when the stack is empty. The entry is not cleared. -/
def State.pop (s : State) : Option (State × Word) :=
  if h : 0 < s.sp.val then
    some ({ s with sp := ⟨s.sp.val - 1, by omega⟩ }, s.stack[s.sp.val - 1]'(by omega))
  else none

/-! ## Framebuffer (10_state.md R30) -/

/-- `FB[j]`, for `j` in 0–2047: column `j mod 64` of row `j div 64`. An index wraps modulo 2048 (R30). -/
def cellAt (fb : Vector (BitVec 64) 32) (j : Nat) : Bool :=
  (fb[j / 64 % 32]'(Nat.mod_lt _ (by decide))).getLsbD (j % 64)

/-- `FB[j] <- FB[j] xor 1`. -/
def flipCell (fb : Vector (BitVec 64) 32) (j : Nat) : Vector (BitVec 64) 32 :=
  have h : j / 64 % 32 < 32 := Nat.mod_lt _ (by decide)
  fb.set (j / 64 % 32) (fb[j / 64 % 32] ^^^ BitVec.twoPow 64 (j % 64)) h

/-- `FB[j]` of a state. -/
def State.cell (s : State) (j : Nat) : Bool := cellAt s.fb j

/-- The framebuffer becomes `fb`. -/
def State.setFb (s : State) (fb : Vector (BitVec 64) 32) : State := { s with fb := fb }

/-- The redraw signal of this step is set (40_display.md R67, 60_exceptions.md R119). -/
def State.requestRedraw (s : State) : State := { s with redraw := true }

/-- The framebuffer as the host reads it: 2048 cells, row-major (60_exceptions.md R121). -/
def State.framebuffer (s : State) : List Bool := (List.range 2048).map s.cell

/-! ## Keypad (10_state.md R31) -/

/-- `K[k]`, or none when `k > 15`. -/
def State.key (s : State) (k : Byte) : Option Bool :=
  if h : k.toNat < 16 then some (s.keys[k.toNat]'h) else none

/-- The lowest-numbered pressed key, if any (45_timers_keys.md R102). -/
def State.firstKey (s : State) : Option Nat := s.keys.toList.findIdx? (fun pressed => pressed)

/-- The host writes the keypad, between two steps (60_exceptions.md R120, R122). -/
def State.hostSetKeys (s : State) (keys : Vector Bool 16) : State := { s with keys := keys }

/-! ## The free draw (43_alu.md R93) -/

/-- The byte drawn next: a free value (assumption log 3). -/
def State.drawnByte (s : State) : Byte := Config.randomByte s.draws

/-- The next draw is another one. -/
def State.nextDraw (s : State) : State := { s with draws := s.draws + 1 }

/-! ## Faults (60_exceptions.md) -/

/-- The codes of 60_exceptions.md R105. -/
def FaultKind.code : FaultKind → Nat
  | .unrecognizedOpcode => 1
  | .fetchOutOfRange => 2
  | .memoryOutOfRange => 3
  | .stackOverflow => 4
  | .stackUnderflow => 5
  | .keyIndexOutOfRange => 6

/-- `raise`: taking a fault. The fault record is set, with the PC of the faulting instruction; both signals are false;
nothing else changes (60_exceptions.md R107). Every meaning raises before its first write. -/
def State.raise (s : State) (kind : FaultKind) (opcode : Option Word) (info : Option Nat) : State :=
  { s with
    fault := some { kind := kind, pc := s.pc, opcode := opcode, info := info }
    redraw := false
    tone := false }

/-- The step raises `kind` in executing `i`. -/
def raiseIn (s : State) (i : Instr) (kind : FaultKind) (info : Option Nat) : Host.Outcome State Fault Refusal :=
  .next (s.raise kind (some (encode i)) info)

/-! ## The tick (60_exceptions.md R116) -/

/-- A timer counts down unless it is 0. -/
def countDown (b : Byte) : Byte := if 0 < b.toNat then b - 1#8 else b

/-- `Tick()`: both timers count down; the tone signal is set exactly when the sound timer reaches 0 by it. -/
def State.tick (s : State) : State :=
  { s with
    dt := countDown s.dt
    st := countDown s.st
    tone := decide (0 < s.st.toNat) && decide (countDown s.st = 0#8) }

/-! ## The trace (10_state.md R33) -/

/-- The values a snapshot holds. -/
def State.snapshot (s : State) : Snapshot :=
  { pc := s.pc, ireg := s.ireg, sp := s.sp, dt := s.dt, st := s.st, regs := s.regs, stack := s.stack, keys := s.keys }

/-- The snapshot after the step's tick. -/
def Snapshot.ticked (p : Snapshot) : Snapshot := { p with dt := countDown p.dt, st := countDown p.st }

/-- The trace of this step is recorded. -/
def State.setTrace (s : State) (t : Trace) : State := { s with trace := some t }

/-- The snapshot the host reads: at a time the spec does not state. -/
def Trace.snapshot (t : Trace) : Snapshot :=
  match Config.traceTime with
  | .beforeInstruction => t.before
  | .afterInstruction => t.executed
  | .afterTick => t.executed.ticked

/-- The mnemonic text the host reads: a text the spec does not give. -/
def Trace.text (t : Trace) : String := Config.traceText t.instr

/-! ## The parts of a step (30_encoding.md R63) -/

/-- Both signals start a step as false. -/
def State.beginStep (s : State) : State := { s with redraw := false, tone := false }

/-- `Fetch(PC)`: the big-endian opcode at PC, or none when `PC > 0xFFE` (20_memory.md R44, R47). -/
def State.fetch (s : State) : Option Word :=
  if 0xFFE < s.pc.toNat then none
  else some (opcodeOfBytes (s.mem.read s.pc.toNat) (s.mem.read (s.pc.toNat + 1)))

/-- The step faults in its fetch: the record holds no opcode, and PC as its info (60_exceptions.md R105, R107). -/
def State.raiseFetch (s : State) : State := s.raise .fetchOutOfRange none (some s.pc.toNat)

/-- The step faults in decoding `op` (60_exceptions.md R105, R107). -/
def State.raiseDecode (s : State) (op : Word) : State := s.raise .unrecognizedOpcode (some op) none

/-- The end of a step whose instruction `i`, of opcode `op`, took `s` to `t`: the tick and the trace, or nothing when
the instruction raised a fault (30_encoding.md R63, 60_exceptions.md R107). -/
def finishStep (op : Word) (i : Instr) (s t : State) : State :=
  match t.fault with
  | some _ => t
  | none => t.tick.setTrace { opcode := op, instr := i, before := s.snapshot, executed := t.snapshot }

/-- The instruction's bytes `op` stored where `s` fetches next, if that is in memory. -/
def State.storeAtPc (s : State) (op : Word) : State :=
  match s.mem.writeBlock s.pc.toNat [opcodeHigh op, opcodeLow op] with
  | .ok m => s.setMem m
  | .error _ => s

/-! ## Initialization (70_reset_and_hazards.md R128) -/

/-- `Init(image)`: the state after reset with the image at 0x200; none for an image over 3584 bytes, which the loader
rejects (60_exceptions.md R106). -/
def State.init (image : List Byte) : Option State :=
  if image.length ≤ 3584 then some (State.reset.setMem (State.reset.mem.writeBytes 0x200 image)) else none

end Sys2Proof.Machine
end

