-- ==== Sys2Proof/Machine/Flags.lean ====
section
/-! DEFINITION. The flag computations: what the six flag instructions leave in VF (10_state.md R22). -/

namespace Sys2Proof.Machine

/-- A flag as the byte VF holds: 1 or 0. -/
def flagByte (c : Bool) : Byte := if c then 1#8 else 0#8

/-- `V[15] <- 1 if c else 0`. -/
def State.setFlag (s : State) (c : Bool) : State := s.setV 15#4 (flagByte c)

/-- The carry of `8XY4`: `a + b ≥ 256` (43_alu.md R88). -/
def carryOut (a b : Byte) : Bool := decide (256 ≤ a.toNat + b.toNat)

/-- The not-borrow flag of a subtraction `a - b`: 0 if `a < b`, else 1 (43_alu.md R89, R91). -/
def notBorrow (a b : Byte) : Bool := !decide (a.toNat < b.toNat)

/-- The bit a right shift drops: bit 0 (43_alu.md R90). -/
def lowBit (a : Byte) : Bool := a.getLsbD 0

/-- The bit a left shift drops: bit 7 (43_alu.md R92). -/
def highBit (a : Byte) : Bool := a.getLsbD 7

end Sys2Proof.Machine
end

