-- ==== Sys2Proof/Machine/Operands.lean ====
section
/-! DEFINITION. The operand forms (30_encoding.md R54, 20_memory.md R42): how a field of the opcode becomes a value,
an address or a block of memory. -/

namespace Sys2Proof.Machine

/-- `zext_16(NNN)`: an address field as a word (30_encoding.md R54). -/
def zextAddr (nnn : Addr12) : Word := nnn.setWidth 16

/-- An 8-bit value as a word, zero-extended (00_scope.md R13). -/
def zextByte (b : Byte) : Word := b.setWidth 16

/-- `I` as the base of a data access: an integer, so that `I + k` never wraps (20_memory.md R42). -/
def State.dataBase (s : State) : Nat := s.ireg.toNat

/-- The `N` bytes of a sprite at `I` (40_display.md R67). -/
def State.spriteRows (s : State) (n : Nibble) : Except Nat (List Byte) := s.mem.readBlock s.dataBase n.toNat

/-- The decimal digits of a byte, hundreds first (44_index_memory.md R97). -/
def bcdDigits (b : Byte) : List Byte :=
  [BitVec.ofNat 8 (b.toNat / 100), BitVec.ofNat 8 (b.toNat / 10 % 10), BitVec.ofNat 8 (b.toNat % 10)]

end Sys2Proof.Machine
end

