-- ==== Sys2Proof/Machine/Alu.lean ====
section
/-! DEFINITION. Register loads, arithmetic and logic (43_alu.md). The writes of a meaning stand in the order of the
rule's statements, which decides what VF holds when X is 15 (43_alu.md R81). -/

namespace Sys2Proof.Machine

/-- 6XNN: V[X] <- NN (43_alu.md R82). -/
def execLdImm (x : Nibble) (nn : Byte) (s : State) : Host.Outcome State Fault Refusal :=
  .next (s.setV x nn).advance

/-- 7XNN: V[X] <- V[X] + NN modulo 256, no flag (43_alu.md R83). -/
def execAddImm (x : Nibble) (nn : Byte) (s : State) : Host.Outcome State Fault Refusal :=
  .next (s.setV x (s.v x + nn)).advance

/-- 8XY0: V[X] <- V[Y] (43_alu.md R84). -/
def execLdReg (x y : Nibble) (s : State) : Host.Outcome State Fault Refusal :=
  .next (s.setV x (s.v y)).advance

/-- 8XY1: V[X] <- V[X] or V[Y] (43_alu.md R85). -/
def execOrReg (x y : Nibble) (s : State) : Host.Outcome State Fault Refusal :=
  .next (s.setV x (s.v x ||| s.v y)).advance

/-- 8XY2: V[X] <- V[X] and V[Y] (43_alu.md R86). -/
def execAndReg (x y : Nibble) (s : State) : Host.Outcome State Fault Refusal :=
  .next (s.setV x (s.v x &&& s.v y)).advance

/-- 8XY3: V[X] <- V[X] xor V[Y] (43_alu.md R87). -/
def execXorReg (x y : Nibble) (s : State) : Host.Outcome State Fault Refusal :=
  .next (s.setV x (s.v x ^^^ s.v y)).advance

/-- 8XY4: add, then VF <- carry (43_alu.md R88). -/
def execAddReg (x y : Nibble) (s : State) : Host.Outcome State Fault Refusal :=
  .next ((s.setV x (s.v x + s.v y)).setFlag (carryOut (s.v x) (s.v y))).advance

/-- 8XY5: V[X] - V[Y], then VF <- not-borrow (43_alu.md R89). -/
def execSubReg (x y : Nibble) (s : State) : Host.Outcome State Fault Refusal :=
  .next ((s.setV x (s.v x - s.v y)).setFlag (notBorrow (s.v x) (s.v y))).advance

/-- 8XY6: VF <- bit 0 of V[X], then V[X] <- V[X] div 2, V[X] read again (43_alu.md R90, R81). Y is not used. -/
def execShr (x _y : Nibble) (s : State) : Host.Outcome State Fault Refusal :=
  let t := s.setFlag (lowBit (s.v x))
  .next (t.setV x (t.v x >>> 1)).advance

/-- 8XY7: V[Y] - V[X], then VF <- not-borrow (43_alu.md R91). -/
def execSubnReg (x y : Nibble) (s : State) : Host.Outcome State Fault Refusal :=
  .next ((s.setV x (s.v y - s.v x)).setFlag (notBorrow (s.v y) (s.v x))).advance

/-- 8XYE: VF <- bit 7 of V[X], then V[X] <- V[X] * 2 modulo 256, V[X] read again (43_alu.md R92, R81). Y is not used. -/
def execShl (x _y : Nibble) (s : State) : Host.Outcome State Fault Refusal :=
  let t := s.setFlag (highBit (s.v x))
  .next (t.setV x (t.v x <<< 1)).advance

/-- CXNN: V[X] <- r and NN, for the free byte r of this draw (43_alu.md R93). -/
def execRnd (x : Nibble) (nn : Byte) (s : State) : Host.Outcome State Fault Refusal :=
  .next (s.nextDraw.setV x (s.drawnByte &&& nn)).advance

end Sys2Proof.Machine
end

