-- ==== Sys2Proof/Machine/Control.lean ====
section
/-! DEFINITION. Control transfer (41_control.md). -/

namespace Sys2Proof.Machine

/-- 00EE: return from subroutine (41_control.md R69). -/
def execRet (s : State) : Host.Outcome State Fault Refusal :=
  match s.pop with
  | none => raiseIn s .ret .stackUnderflow none
  | some (t, w) => .next (t.setPc w).advance

/-- 1NNN: jump (41_control.md R70). -/
def execJp (nnn : Addr12) (s : State) : Host.Outcome State Fault Refusal :=
  .next (s.setPc (zextAddr nnn))

/-- 2NNN: call subroutine; the address pushed is this instruction's (41_control.md R71). -/
def execCall (nnn : Addr12) (s : State) : Host.Outcome State Fault Refusal :=
  match s.push s.pc with
  | none => raiseIn s (.call nnn) .stackOverflow none
  | some t => .next (t.setPc (zextAddr nnn))

/-- BNNN: jump to V0 + NNN + 2 (41_control.md R72). -/
def execJpV0 (nnn : Addr12) (s : State) : Host.Outcome State Fault Refusal :=
  .next (s.setPc (zextByte (s.v 0#4) + zextAddr nnn)).advance

end Sys2Proof.Machine
end

