-- ==== Sys2Proof/Machine/Display.lean ====
section
/-! DEFINITION. Display instructions (40_display.md). -/

namespace Sys2Proof.Machine

/-- The cell of bit `b` of sprite row `r` drawn at column `x0` and row `y0`: linear, modulo 2048 (40_display.md R67). -/
def cellIndex (x0 y0 r b : Nat) : Nat := ((r + y0) * 64 + b + x0) % 2048

/-- A framebuffer being drawn on, and whether a cell that was 1 has been toggled. -/
structure Canvas where
  fb : Vector (BitVec 64) 32
  hit : Bool
  deriving DecidableEq, Repr

/-- `if FB[j] = 1 then V[15] <- 1; FB[j] <- FB[j] xor 1`. -/
def Canvas.toggle (c : Canvas) (j : Nat) : Canvas :=
  { fb := flipCell c.fb j, hit := c.hit || cellAt c.fb j }

/-- One row of a sprite, its most significant bit leftmost. -/
def Canvas.drawRow (c : Canvas) (x0 y0 r : Nat) (row : Byte) : Canvas :=
  (List.range 8).foldl (fun c b => if row.getLsbD (7 - b) then c.toggle (cellIndex x0 y0 r b) else c) c

/-- The rows of a sprite, numbered from `r` on. -/
def Canvas.drawRows : Canvas → Nat → Nat → Nat → List Byte → Canvas
  | c, _, _, _, [] => c
  | c, x0, y0, r, row :: rows => Canvas.drawRows (c.drawRow x0 y0 r row) x0 y0 (r + 1) rows

/-- 00E0: clear the screen (40_display.md R66). -/
def execCls (s : State) : Host.Outcome State Fault Refusal :=
  .next (s.setFb (Vector.replicate 32 0#64)).advance

/-- DXYN: draw a sprite (40_display.md R67). Coordinates and rows are read before VF is written. -/
def execDrw (x y n : Nibble) (s : State) : Host.Outcome State Fault Refusal :=
  match s.spriteRows n with
  | .error a => raiseIn s (.drw x y n) .memoryOutOfRange (some a)
  | .ok rows =>
    let c := Canvas.drawRows { fb := s.fb, hit := false } (s.v x).toNat (s.v y).toNat 0 rows
    .next ((s.setFb c.fb).setFlag c.hit).requestRedraw.advance

end Sys2Proof.Machine
end

