-- ==== Sys2Proof/Machine/IndexMemory.lean ====
section
/-! DEFINITION. Address register and memory block instructions (44_index_memory.md). -/

namespace Sys2Proof.Machine

/-- ANNN: I <- NNN (44_index_memory.md R94). -/
def execLdI (nnn : Addr12) (s : State) : Host.Outcome State Fault Refusal :=
  .next (s.setI (zextAddr nnn)).advance

/-- FX1E: I <- I + V[X] modulo 65536, no flag (44_index_memory.md R95). -/
def execAddI (x : Nibble) (s : State) : Host.Outcome State Fault Refusal :=
  .next (s.setI (s.ireg + zextByte (s.v x))).advance

/-- FX29: I <- V[X] * 5 (44_index_memory.md R96). -/
def execLdF (x : Nibble) (s : State) : Host.Outcome State Fault Refusal :=
  .next (s.setI (zextByte (s.v x) * 5#16)).advance

/-- The store of a block at I, shared by FX33 and FX55: all bytes or, when one address is out of range, a fault. -/
def storeBlock (i : Instr) (bytes : List Byte) (s : State) : Host.Outcome State Fault Refusal :=
  match s.mem.writeBlock s.dataBase bytes with
  | .error a => raiseIn s i .memoryOutOfRange (some a)
  | .ok m => .next (s.setMem m).advance

/-- FX33: the decimal digits of V[X] at I, I + 1, I + 2 (44_index_memory.md R97). -/
def execLdB (x : Nibble) (s : State) : Host.Outcome State Fault Refusal :=
  storeBlock (.ldB x) (bcdDigits (s.v x)) s

/-- FX55: V[0] to V[X] into memory at I (44_index_memory.md R98). -/
def execLdMemVx (x : Nibble) (s : State) : Host.Outcome State Fault Refusal :=
  storeBlock (.ldMemVx x) (s.vsUpTo x) s

/-- FX65: memory at I into V[0] to V[X] (44_index_memory.md R99). -/
def execLdVxMem (x : Nibble) (s : State) : Host.Outcome State Fault Refusal :=
  match s.mem.readBlock s.dataBase (x.toNat + 1) with
  | .error a => raiseIn s (.ldVxMem x) .memoryOutOfRange (some a)
  | .ok bytes => .next (s.setVs 0 bytes).advance

end Sys2Proof.Machine
end

