-- ==== Sys2Proof/Machine/Skip.lean ====
section
/-! DEFINITION. Conditional skips (42_skip.md). -/

namespace Sys2Proof.Machine

/-- 3XNN: skip if V[X] = NN (42_skip.md R74). -/
def execSeImm (x : Nibble) (nn : Byte) (s : State) : Host.Outcome State Fault Refusal :=
  .next (s.skipIf (s.v x == nn))

/-- 4XNN: skip if V[X] ≠ NN (42_skip.md R75). -/
def execSneImm (x : Nibble) (nn : Byte) (s : State) : Host.Outcome State Fault Refusal :=
  .next (s.skipIf (s.v x != nn))

/-- 5XY0: skip if V[X] = V[Y] (42_skip.md R76). -/
def execSeReg (x y : Nibble) (s : State) : Host.Outcome State Fault Refusal :=
  .next (s.skipIf (s.v x == s.v y))

/-- 9XY0: skip if V[X] ≠ V[Y] (42_skip.md R77). -/
def execSneReg (x y : Nibble) (s : State) : Host.Outcome State Fault Refusal :=
  .next (s.skipIf (s.v x != s.v y))

/-- EX9E: skip if the key V[X] is pressed (42_skip.md R78). -/
def execSkp (x : Nibble) (s : State) : Host.Outcome State Fault Refusal :=
  match s.key (s.v x) with
  | none => raiseIn s (.skp x) .keyIndexOutOfRange (some (s.v x).toNat)
  | some pressed => .next (s.skipIf pressed)

/-- EXA1: skip if the key V[X] is not pressed (42_skip.md R79). -/
def execSknp (x : Nibble) (s : State) : Host.Outcome State Fault Refusal :=
  match s.key (s.v x) with
  | none => raiseIn s (.sknp x) .keyIndexOutOfRange (some (s.v x).toNat)
  | some pressed => .next (s.skipIf !pressed)

end Sys2Proof.Machine
end

