-- ==== Sys2Proof/Machine/TimersKeys.lean ====
section
/-! DEFINITION. Timer and key-wait instructions (45_timers_keys.md). The tick of the same step comes after them (R100). -/

namespace Sys2Proof.Machine

/-- FX07: V[X] <- DT (45_timers_keys.md R101). -/
def execLdVxDt (x : Nibble) (s : State) : Host.Outcome State Fault Refusal :=
  .next (s.setV x s.dt).advance

/-- FX0A: the lowest pressed key into V[X], or nothing at all, so that it runs again (45_timers_keys.md R102). -/
def execLdVxK (x : Nibble) (s : State) : Host.Outcome State Fault Refusal :=
  match s.firstKey with
  | some k => .next (s.setV x (BitVec.ofNat 8 k)).advance
  | none => .next s

/-- FX15: DT <- V[X] (45_timers_keys.md R103). -/
def execLdDtVx (x : Nibble) (s : State) : Host.Outcome State Fault Refusal :=
  .next (s.setDt (s.v x)).advance

/-- FX18: ST <- V[X] (45_timers_keys.md R104). -/
def execLdStVx (x : Nibble) (s : State) : Host.Outcome State Fault Refusal :=
  .next (s.setSt (s.v x)).advance

end Sys2Proof.Machine
end

