-- ==== Sys2Proof/Machine/Step.lean ====
section
/-! DEFINITION. One step (30_encoding.md R63): fetch, decode, execute, tick; and a step that faults. -/

namespace Sys2Proof.Machine

/-- `Step`. With the fault record set there is no step (60_exceptions.md R108). A fetch or decode fault is taken by
`State.raise`, an instruction's own fault by its meaning; after any other instruction come the tick and the trace. -/
def step (s : State) : Host.Outcome State Fault Refusal :=
  match s.fault with
  | some r => .fault (.halted r)
  | none =>
    match s.beginStep.fetch with
    | none => .next s.beginStep.raiseFetch
    | some op =>
      match decode op with
      | .error _ => .next (s.beginStep.raiseDecode op)
      | .ok i =>
        match exec i s.beginStep with
        | .next t => .next (finishStep op i s.beginStep t)
        | .fault f => .fault f
        | .refused r => .refused r

/-- `s` with the table's word of `nbits` bits stored where `step` fetches next: at PC, high byte first. The step then
runs it when no fault is recorded and PC ≤ 0xFFE, as after reset (assumption log 7). -/
def State.withFetchWord (s : State) (nbits w : Nat) : State := s.storeAtPc (tableOpcode nbits w)

end Sys2Proof.Machine
end

