-- ==== Sys2Proof/Safety.lean ====
section
/-! DEFINITION. The terms claims use: frames, a fault taken precisely, the invariant, and the states a run reaches. -/

namespace Sys2Proof.Machine

/-- The opcode `op` is the encoding of `i`: it decodes to `i`, and `i` is encoded as it. -/
def Encodes (op : Word) (i : Instr) : Prop := decode op = .ok i ∧ encode i = op

/-! ## Frames -/

/-- What an instruction may write, beside PC: registers, stack entries and memory by their places, the rest by name.
No instruction writes the keypad (10_state.md R31). -/
structure Writes where
  regs : List Nibble := []
  ireg : Bool := false
  stack : List (Fin 16) := []
  sp : Bool := false
  dt : Bool := false
  st : Bool := false
  fb : Bool := false
  mem : List Nat := []
  fault : Bool := false
  trace : Bool := false
  redraw : Bool := false
  tone : Bool := false
  draws : Bool := false

/-- From `s` to `t` nothing changes but PC and what `w` names: every other register, stack entry and byte of memory is
as before, and every other piece of state. -/
structure Frame (w : Writes) (s t : State) : Prop where
  regs : ∀ x, x ∉ w.regs → t.v x = s.v x
  ireg : w.ireg = false → t.ireg = s.ireg
  stack : ∀ k : Fin 16, k ∉ w.stack → t.stack[k] = s.stack[k]
  sp : w.sp = false → t.sp = s.sp
  dt : w.dt = false → t.dt = s.dt
  st : w.st = false → t.st = s.st
  fb : w.fb = false → ∀ j, t.cell j = s.cell j
  keys : t.keys = s.keys
  mem : ∀ a, a ∉ w.mem → t.mem.read a = s.mem.read a
  fault : w.fault = false → t.fault = s.fault
  trace : w.trace = false → t.trace = s.trace
  redraw : w.redraw = false → t.redraw = s.redraw
  tone : w.tone = false → t.tone = s.tone
  draws : w.draws = false → t.draws = s.draws

/-- `exec i s` answers a next state `t` that meets `post`, and nothing but PC and what `w` names is written. -/
def Runs (i : Instr) (s : State) (w : Writes) (post : State → Prop) : Prop :=
  ∃ t, exec i s = .next t ∧ post t ∧ Frame w s t

/-- `exec i s` takes a fault of `kind` with `info`: the record is set, PC stays at the instruction, both signals are
false, and nothing else changes (60_exceptions.md R107). -/
def Raises (i : Instr) (s : State) (kind : FaultKind) (info : Option Nat) : Prop :=
  ∃ t, exec i s = .next t ∧
    t.fault = some { kind := kind, pc := s.pc, opcode := some (encode i), info := info } ∧
    t.pc = s.pc ∧ t.redraw = false ∧ t.tone = false ∧
    Frame { fault := true, redraw := true, tone := true } s t

/-- Claims about a whole step: when no fault is recorded and the opcode of `i` stands at PC, the step answers a next
state that meets `post`. -/
def Steps (i : Instr) (s : State) (post : State → Prop) : Prop :=
  s.fault = none → s.fetch = some (encode i) → ∃ t, step s = .next t ∧ post t

/-- The instructions that can raise a fault of the kind (60_exceptions.md R105, R109); fetch and decode faults are
raised by no instruction. -/
def FaultKind.raisedBy : FaultKind → Instr → Bool
  | .memoryOutOfRange, .drw _ _ _ => true
  | .memoryOutOfRange, .ldB _ => true
  | .memoryOutOfRange, .ldMemVx _ => true
  | .memoryOutOfRange, .ldVxMem _ => true
  | .stackOverflow, .call _ => true
  | .stackUnderflow, .ret => true
  | .keyIndexOutOfRange, .skp _ => true
  | .keyIndexOutOfRange, .sknp _ => true
  | _, _ => false

/-- The general registers the instruction may write (10_state.md R21): as its result, as a flag, or as a range. -/
def registersWritten : Instr → List Nibble
  | .ldImm x _ | .addImm x _ | .ldReg x _ | .orReg x _ | .andReg x _ | .xorReg x _ | .rnd x _ | .ldVxDt x | .ldVxK x => [x]
  | .addReg x _ | .subReg x _ | .shr x _ | .subnReg x _ | .shl x _ => [x, 15#4]
  | .drw _ _ _ => [15#4]
  | .ldVxMem x => (List.range (x.toNat + 1)).map (BitVec.ofNat 4)
  | .cls | .ret | .jp _ | .call _ | .jpV0 _ | .seImm _ _ | .sneImm _ _ | .seReg _ _ | .sneReg _ _ | .skp _ | .sknp _
  | .ldI _ | .addI _ | .ldF _ | .ldB _ | .ldMemVx _ | .ldDtVx _ | .ldStVx _ => []

/-! ## Sprites (40_display.md R67) -/

/-- Bit `b` of row `r` of a sprite is 1 and is drawn at cell `j`, for column `x0` and row `y0`. -/
def SpriteHits (rows : List Byte) (x0 y0 j : Nat) : Prop :=
  ∃ r b, ∃ h : r < rows.length, b < 8 ∧ rows[r].getLsbD (7 - b) = true ∧ j = ((r + y0) * 64 + b + x0) % 2048

/-! ## The invariant -/

/-- A fault record says what happened at `s`, where nothing has changed since: the opcode is the one at PC, and the kind
and the info are those of 60_exceptions.md R105. -/
def FaultRecord.describes (r : FaultRecord) (s : State) : Prop :=
  r.pc = s.pc ∧ r.opcode = s.fetch ∧ s.redraw = false ∧ s.tone = false ∧
  match r.kind with
  | .fetchOutOfRange => 0xFFE < s.pc.toNat ∧ r.info = some s.pc.toNat
  | .unrecognizedOpcode => ∃ op, s.fetch = some op ∧ decode op = .error (.unrecognizedOpcode op) ∧ r.info = none
  | kind => ∃ i, s.fetch = some (encode i) ∧ kind.raisedBy i = true ∧
    match i with
    | .call _ => s.sp.val = 16 ∧ r.info = none
    | .ret => s.sp.val = 0 ∧ r.info = none
    | .skp x => 15 < (s.v x).toNat ∧ r.info = some (s.v x).toNat
    | .sknp x => 15 < (s.v x).toNat ∧ r.info = some (s.v x).toNat
    | .drw _ _ n => 4096 < s.ireg.toNat + n.toNat ∧ r.info = some (max s.ireg.toNat 4096)
    | .ldB _ => 4096 < s.ireg.toNat + 3 ∧ r.info = some (max s.ireg.toNat 4096)
    | .ldMemVx x => 4096 < s.ireg.toNat + (x.toNat + 1) ∧ r.info = some (max s.ireg.toNat 4096)
    | .ldVxMem x => 4096 < s.ireg.toNat + (x.toNat + 1) ∧ r.info = some (max s.ireg.toNat 4096)
    | _ => False

/-- What every step keeps: memory in canonical form; a fault record that describes the state; and a tone signal only when
the sound timer stands at 0 (60_exceptions.md R116). -/
structure State.Inv (s : State) : Prop where
  memory : s.mem.wf = true
  record : ∀ r, s.fault = some r → r.describes s
  toneOff : s.tone = true → s.st = 0#8

/-! ## Runs -/

/-- The states of a run: `Init` of an image, then steps and, between them, the host's writes of the keypad
(60_exceptions.md R120, R127, R131). -/
inductive Reachable : State → Prop where
  | init (image : List Byte) (s : State) (h : State.init image = some s) : Reachable s
  | step (s t : State) (hs : Reachable s) (h : step s = .next t) : Reachable t
  | keys (s : State) (hs : Reachable s) (k : Vector Bool 16) : Reachable (s.hostSetKeys k)

/-- A run with the host's keypad before each step (60_exceptions.md R120). -/
def runWithKeys : List (Vector Bool 16) → State → Host.Outcome State Fault Refusal
  | [], s => .next s
  | k :: ks, s =>
    match step (s.hostSetKeys k) with
    | .next t => runWithKeys ks t
    | .fault f => .fault f
    | .refused r => .refused r

/-- A safe state: no fault is recorded. -/
def State.running (s : State) : Bool := s.fault.isNone

end Sys2Proof.Machine
end

