-- ==== Sys2Proof/Certificates/Slice0/Obligations.lean ====
section
/-! DEFINITION. The statements for the provers: what the spec's rules say the machine does. -/

open Sys2Proof Sys2Proof.Machine

/-! ## Decoding (30_encoding.md) -/

/-- Words written out from the opcode map of R57, one or more of each family, decode to the instructions they stand for. -/
def Obligations.SampleWordsDecode : Prop :=
  decode 0x00E0#16 = .ok .cls ∧ decode 0x00EE#16 = .ok .ret ∧ decode 0x1205#16 = .ok (.jp 0x205#12) ∧
  decode 0x3342#16 = .ok (.seImm 3#4 0x42#8) ∧ decode 0x9120#16 = .ok (.sneReg 1#4 2#4) ∧
  decode 0x8236#16 = .ok (.shr 2#4 3#4) ∧ decode 0xC30F#16 = .ok (.rnd 3#4 0x0F#8) ∧
  decode 0xD015#16 = .ok (.drw 0#4 1#4 5#4) ∧ decode 0xE5A1#16 = .ok (.sknp 5#4) ∧
  decode 0xF20A#16 = .ok (.ldVxK 2#4) ∧ decode 0xF155#16 = .ok (.ldMemVx 1#4) ∧
  decode 0x5121#16 = .error (.unrecognizedOpcode 0x5121#16)

/-- Decoding undoes encoding and encoding undoes decoding, for every instruction, at every operand value: no bit of an
opcode is dropped or invented. Also as bytes in memory order. -/
def Obligations.EncodeDecodeRoundTrip : Prop :=
  (∀ i : Instr, decode (encode i) = .ok i) ∧
  (∀ (op : Word) (i : Instr), decode op = .ok i → encode i = op) ∧
  (∀ (i : Instr) (rest : List Byte), decodeBytes (encodeBytes i ++ rest) = .ok (i, rest))

/-- Every opcode matches at most one row of the opcode map, so the order of the checks changes nothing (R58, which the
spec derives from R57). -/
def Obligations.OpcodeMatchesAtMostOneRow : Prop :=
  ∀ op : Word, (opcodeMap.filter (fun r => r.matchesOpcode op)).length ≤ 1

/-- Exactly the opcodes of R60's table (derived by the spec from R57, with its decision D8) are unrecognized. -/
def Obligations.UnrecognizedOpcodesAreThoseListed : Prop :=
  ∀ op : Word, decode op = .error (.unrecognizedOpcode op) ↔
    (fieldFamily op = 0x0#4 ∧ op ≠ 0x00E0#16 ∧ op ≠ 0x00EE#16) ∨
    (fieldFamily op = 0x5#4 ∧ fieldN op ≠ 0x0#4) ∨
    (fieldFamily op = 0x8#4 ∧ fieldN op ∈ [0x8#4, 0x9#4, 0xA#4, 0xB#4, 0xC#4, 0xD#4, 0xF#4]) ∨
    (fieldFamily op = 0x9#4 ∧ fieldN op ≠ 0x0#4) ∨
    (fieldFamily op = 0xE#4 ∧ fieldNN op ∉ [0x9E#8, 0xA1#8]) ∨
    (fieldFamily op = 0xF#4 ∧
      fieldNN op ∉ [0x07#8, 0x0A#8, 0x15#8, 0x18#8, 0x1E#8, 0x29#8, 0x33#8, 0x55#8, 0x65#8])

/-! ## Reset and memory -/

/-- Init: an image of at most 3584 bytes gives the state of 70_reset_and_hazards.md R129, a longer one none. The zero in I
is the spec's decision D17; the absent trace, the false signals and the draw count 0 are the model's (log 5, 4, 3). -/
def Obligations.InitLeavesResetValues : Prop :=
  State.init [] = some State.reset ∧
  ∀ image : List Byte,
    (3584 < image.length → State.init image = none) ∧
    (image.length ≤ 3584 → ∃ s, State.init image = some s ∧
      (∀ x, s.v x = 0#8) ∧ s.ireg = 0#16 ∧ s.pc = 0x200#16 ∧ s.sp.val = 0 ∧ (∀ k : Fin 16, s.stack[k] = 0#16) ∧
      s.dt = 0#8 ∧ s.st = 0#8 ∧ (∀ j, s.cell j = false) ∧ (∀ k : Fin 16, s.keys[k] = false) ∧
      (∀ a, a < 80 → s.mem.read a = Config.glyphRom a) ∧
      (∀ a, 80 ≤ a → a < 0x200 → s.mem.read a = 0#8) ∧
      (∀ k (h : k < image.length), s.mem.read (0x200 + k) = image[k]) ∧
      (∀ a, 0x200 + image.length ≤ a → s.mem.read a = 0#8) ∧
      s.fault = none ∧ s.trace = none ∧ s.redraw = false ∧ s.tone = false ∧ s.draws = 0)

/-- A write changes exactly the byte at its address, which then holds the value written (20_memory.md R48, which the spec
derives from R37). That it keeps the canonical form is about the model's own representation (log 6, DESIGN CHOICE). -/
def Obligations.WriteChangesExactlyOneByte : Prop :=
  ∀ (m : Memory) (a : Nat) (v : Byte), m.wf = true → a < 4096 →
    (m.write a v).wf = true ∧ ∀ b, (m.write a v).read b = if b = a then v else m.read b

/-- Memories in canonical form that hold the same bytes are the same data (assumption log 6). -/
def Obligations.CanonicalMemoriesAreEqual : Prop :=
  ∀ m m' : Memory, m.wf = true → m'.wf = true → (∀ a, a < 4096 → m.read a = m'.read a) → m = m'

/-- Fetch reads the bytes at PC and PC + 1, the first being the high byte, at even and odd PC alike; above 0xFFE there is
no opcode (20_memory.md R44, R45, R47; the bound is the spec's decision D4). -/
def Obligations.FetchIsBigEndian : Prop :=
  ∀ s : State,
    (0xFFE < s.pc.toNat → s.fetch = none) ∧
    (s.pc.toNat ≤ 0xFFE → ∃ op : Word, s.fetch = some op ∧
      op.toNat = (s.mem.read s.pc.toNat).toNat * 256 + (s.mem.read (s.pc.toNat + 1)).toNat)

/-- Two bytes stored by FX55 are the opcode fetched at their address, with nothing in between (20_memory.md R51,
70_reset_and_hazards.md R133, both derived by the spec). -/
def Obligations.StoredBytesAreFetched : Prop :=
  ∀ (x : Nibble) (s : State) (k : Nat), s.mem.wf = true → s.ireg.toNat + x.toNat ≤ 0xFFF → k < x.toNat →
    ∃ t, exec (.ldMemVx x) s = .next t ∧
      (t.setPc (BitVec.ofNat 16 (s.ireg.toNat + k))).fetch =
        some (opcodeOfBytes (s.v (BitVec.ofNat 4 k)) (s.v (BitVec.ofNat 4 (k + 1))))

/-! ## The step (30_encoding.md R63, 60_exceptions.md) -/

/-- When the bytes at PC decode to `i`, the step is `exec` of `i`, with both signals false before it (`beginStep`) and
the tick and the trace after it unless it faulted (`finishStep`). -/
def Obligations.StepRunsDecodedInstruction : Prop :=
  ∀ (s : State) (i : Instr), s.fault = none → s.pc.toNat ≤ 0xFFE →
    decode (opcodeOfBytes (s.mem.read s.pc.toNat) (s.mem.read (s.pc.toNat + 1))) = .ok i →
    step s = (match exec i { s with redraw := false, tone := false } with
      | .next t => .next (finishStep (opcodeOfBytes (s.mem.read s.pc.toNat) (s.mem.read (s.pc.toNat + 1))) i
          { s with redraw := false, tone := false } t)
      | .fault f => .fault f
      | .refused r => .refused r)

/-- The tick: each timer goes down by one and never below 0, the tone signal is set exactly when the sound timer goes
from 1 to 0, and nothing else changes (60_exceptions.md R116). It ends every step that does not fault. -/
def Obligations.TickEndsEachStep : Prop :=
  (∀ s : State, s.tick.dt.toNat = s.dt.toNat - 1 ∧ s.tick.st.toNat = s.st.toNat - 1 ∧
    (s.tick.tone = true ↔ s.st.toNat = 1) ∧ s.tick.pc = s.pc ∧ Frame { dt := true, st := true, tone := true } s s.tick) ∧
  (∀ (s t : State) (i : Instr), s.fault = none → s.fetch = some (encode i) → exec i s.beginStep = .next t →
    t.fault = none → ∃ u, step s = .next u ∧ u.pc = t.pc ∧ u.dt.toNat = t.dt.toNat - 1 ∧ u.st.toNat = t.st.toNat - 1 ∧
      (u.tone = true ↔ t.st.toNat = 1) ∧ Frame { dt := true, st := true, tone := true, trace := true } t u)

/-- A fetch above 0xFFE and an opcode that matches no row are taken as faults: the record is set and nothing else
changes (20_memory.md R47, 30_encoding.md R59, 60_exceptions.md R107; the spec's decisions D4 and D9). -/
def Obligations.FetchAndDecodeFaultsAreTaken : Prop :=
  ∀ s : State, s.fault = none →
    (0xFFE < s.pc.toNat →
      step s = .next { s with
        fault := some { kind := .fetchOutOfRange, pc := s.pc, opcode := none, info := some s.pc.toNat }
        redraw := false, tone := false }) ∧
    (∀ op, s.fetch = some op → decode op = .error (.unrecognizedOpcode op) →
      step s = .next { s with
        fault := some { kind := .unrecognizedOpcode, pc := s.pc, opcode := some op, info := none }
        redraw := false, tone := false })

/-- Every fault is precise: a step that records a fault changes nothing else but the two signals, which are false, and the
record holds the PC and the opcode of the faulting instruction (60_exceptions.md R107; beyond the unrecognized opcode this is
the spec's decision D9). Its code is R105's for what happened: 1 in decoding, 2 in the fetch, 3 to 6 in an instruction of
those that R105 lists for it (the numbering is the spec's decision D10). -/
def Obligations.FaultsArePrecise : Prop :=
  ∀ (s t : State) (r : FaultRecord), step s = .next t → t.fault = some r →
    t = { s with fault := some r, redraw := false, tone := false } ∧ r.describes t ∧
    (r.kind.code = 1 ↔ ∃ op, s.fetch = some op ∧ decode op = .error (.unrecognizedOpcode op)) ∧
    (r.kind.code = 2 ↔ 0xFFE < s.pc.toNat) ∧
    (r.kind.code = 3 ↔ (∃ x y n, s.fetch = some (encode (.drw x y n))) ∨ (∃ x, s.fetch = some (encode (.ldB x))) ∨
      (∃ x, s.fetch = some (encode (.ldMemVx x))) ∨ (∃ x, s.fetch = some (encode (.ldVxMem x)))) ∧
    (r.kind.code = 4 ↔ ∃ nnn, s.fetch = some (encode (.call nnn))) ∧
    (r.kind.code = 5 ↔ s.fetch = some (encode .ret)) ∧
    (r.kind.code = 6 ↔ (∃ x, s.fetch = some (encode (.skp x))) ∨ (∃ x, s.fetch = some (encode (.sknp x))))

/-- A core with a fault record takes no step; every other core takes one, so that nothing but a fault ends a run
(60_exceptions.md R108, R127; the spec's decisions D9, D20; the outcome `.fault (.halted r)` is the model's, log 1). -/
def Obligations.OnlyRecordedFaultsStopTheCore : Prop :=
  ∀ s : State,
    (∀ r, s.fault = some r → step s = .fault (.halted r)) ∧
    (s.fault = none → ∃ t, step s = .next t)

/-- Every instruction answers a next state in every state; a fault it records there is of the one kind that
60_exceptions.md R105 lists for it (R109; both carry the spec's decisions). -/
def Obligations.EveryInstructionAnswersNext : Prop :=
  ∀ (i : Instr) (s : State), ∃ t, exec i s = .next t ∧
    (t.fault = s.fault ∨ ∃ r, t.fault = some r ∧ r.kind.raisedBy i = true ∧ r.pc = s.pc ∧ r.opcode = some (encode i))

/-- The redraw signal of a step is true exactly when it executed DXYN without a fault (60_exceptions.md R119; for 00E0 the
spec's decision D13). -/
def Obligations.RedrawExactlyOnDraw : Prop :=
  ∀ s t : State, step s = .next t →
    (t.redraw = true ↔ t.fault = none ∧ ∃ x y n, s.fetch = some (encode (.drw x y n)))

/-! ## Invariants -/

/-- The state after Init of the empty image meets the invariant. -/
def Obligations.ResetMeetsInvariant : Prop := State.reset.Inv

/-- Every step keeps the invariant: memory canonical (the model's representation, log 6), a fault record that describes the
state (the spec's decision D9), a tone only with the sound timer at 0. -/
def Obligations.StepKeepsInvariant : Prop :=
  ∀ s t : State, s.Inv → step s = .next t → t.Inv

/-- Every state of every run, from any image and with any keypad writes between the steps (the spec's decision D19), meets
the invariant; its canonical memory is the model's representation (log 6). -/
def Obligations.ReachableStatesMeetInvariant : Prop :=
  ∀ s : State, Reachable s → s.Inv

/-! ## Whole-machine rules -/

/-- Who writes what: outside the named instructions each piece of state but PC is as before (10_state.md R21, R23, R27, R29,
R30, R31 and 20_memory.md R46; R21 is derived by the spec). A general register changes only if the instruction is one of
those R21 lists for it, and under FX0A only with a key pressed. The fault record and the signals change only by a fault of
one of the instruction's own kinds, or, the redraw signal, by DXYN. The draw count, the trace and the signals as fields, and
a fault as a next state, are the model's (log 3, 5, 4, 1). -/
def Obligations.OnlyNamedInstructionsWrite : Prop :=
  ∀ (i : Instr) (s t : State), exec i s = .next t →
    (∀ y, y ∉ registersWritten i → t.v y = s.v y) ∧
    ((∀ k : Fin 16, s.keys[k] = false) → (∃ x, i = .ldVxK x) → ∀ y, t.v y = s.v y) ∧
    ((∀ x, i ≠ .ldB x ∧ i ≠ .ldMemVx x) → t.mem = s.mem) ∧
    ((∀ nnn, i ≠ .call nnn) → t.stack = s.stack) ∧
    ((∀ nnn, i ≠ .ret ∧ i ≠ .call nnn) → t.sp = s.sp) ∧
    ((∀ nnn x, i ≠ .ldI nnn ∧ i ≠ .addI x ∧ i ≠ .ldF x) → t.ireg = s.ireg) ∧
    ((∀ x, i ≠ .ldDtVx x) → t.dt = s.dt) ∧
    ((∀ x, i ≠ .ldStVx x) → t.st = s.st) ∧
    ((∀ x y n, i ≠ .cls ∧ i ≠ .drw x y n) → t.fb = s.fb) ∧
    ((∀ x nn, i ≠ .rnd x nn) → t.draws = s.draws) ∧
    t.keys = s.keys ∧ t.trace = s.trace ∧
    ((t.fault = s.fault ∧ t.tone = s.tone ∧ ((∀ x y n, i ≠ .drw x y n) → t.redraw = s.redraw)) ∨
      (∃ r, t.fault = some r ∧ r.kind.raisedBy i = true ∧ t.redraw = false ∧ t.tone = false))

/-- How each instruction that does not fault changes PC (30_encoding.md R62, derived by the spec from the instruction
rules). -/
def Obligations.PcAfterEachInstruction : Prop :=
  ∀ (i : Instr) (s t : State), s.fault = none → exec i s = .next t → t.fault = none →
    match i with
    | .jp nnn => t.pc.toNat = nnn.toNat
    | .call nnn => t.pc.toNat = nnn.toNat
    | .ret => ∃ k : Fin 16, s.sp.val = k.val + 1 ∧ t.pc = s.stack[k] + 2#16
    | .jpV0 nnn => t.pc.toNat = (s.v 0#4).toNat + nnn.toNat + 2
    | .seImm x nn => t.pc = if s.v x = nn then s.pc + 4#16 else s.pc + 2#16
    | .sneImm x nn => t.pc = if s.v x = nn then s.pc + 2#16 else s.pc + 4#16
    | .seReg x y => t.pc = if s.v x = s.v y then s.pc + 4#16 else s.pc + 2#16
    | .sneReg x y => t.pc = if s.v x = s.v y then s.pc + 2#16 else s.pc + 4#16
    | .skp x => ∃ k : Fin 16, (s.v x).toNat = k.val ∧ t.pc = if s.keys[k] then s.pc + 4#16 else s.pc + 2#16
    | .sknp x => ∃ k : Fin 16, (s.v x).toNat = k.val ∧ t.pc = if s.keys[k] then s.pc + 2#16 else s.pc + 4#16
    | .ldVxK _ => (t.pc = s.pc ∧ ∀ k : Fin 16, s.keys[k] = false) ∨ (t.pc = s.pc + 2#16 ∧ ∃ k : Fin 16, s.keys[k] = true)
    | _ => t.pc = s.pc + 2#16

/-- No instruction reads the sound timer: started with another value in ST, an instruction leaves the same state but for
ST, and leaves that value there unless it is FX18 (10_state.md R29, 60_exceptions.md R118). -/
def Obligations.NoInstructionReadsSoundTimer : Prop :=
  ∀ (i : Instr) (s t : State) (b : Byte), exec i s = .next t →
    ∃ t', exec i (s.setSt b) = .next t' ∧ t'.setSt 0#8 = t.setSt 0#8 ∧
      ((∀ x, i ≠ .ldStVx x) → t'.st = b) ∧ (∀ x, i = .ldStVx x → t'.st = t.st)

/-- Nothing depends on the trace: from states that differ in their traces alone, a step leaves states that differ in their
traces alone, and stops in the one exactly when it stops in the other (10_state.md R33; that the model keeps a trace is log
5). -/
def Obligations.NothingDependsOnTheTrace : Prop :=
  ∀ (s : State) (tr : Option Trace),
    (∀ t, step s = .next t → ∃ t', step { s with trace := tr } = .next t' ∧
      { t' with trace := none } = { t with trace := none }) ∧
    (∀ f, step s = .fault f → step { s with trace := tr } = .fault f)

/-! ## Display (40_display.md) -/

/-- 00E0 makes every cell 0 and changes nothing else but PC; it does not touch VF or the redraw signal (R66; the redraw
signal is the spec's decision D13). -/
def Obligations.ClearScreenResult : Prop :=
  Encodes 0x00E0#16 .cls ∧
  ∀ s : State, Runs .cls s { fb := true } (fun t => (∀ j, t.cell j = false) ∧ t.pc = s.pc + 2#16)

/-- DXYN with its rows in memory: exactly the cells the sprite's 1 bits fall on are toggled, VF is 1 if one of them was 1
and else 0, redraw is set; coordinates are those before VF is written (R67, with the spec's decisions D3 and D12). -/
def Obligations.DrawSpriteResult : Prop :=
  ∀ (x y n : Nibble), Encodes (0xD#4 ++ x ++ y ++ n) (.drw x y n) ∧
  ∀ (s : State) (rows : List Byte), n = 0#4 ∨ s.ireg.toNat + n.toNat ≤ 4096 →
    rows = (List.range n.toNat).map (fun r => s.mem.read (s.ireg.toNat + r)) →
    Runs (.drw x y n) s { regs := [15#4], fb := true, redraw := true } (fun t =>
      (∀ j, j < 2048 → SpriteHits rows (s.v x).toNat (s.v y).toNat j → t.cell j = !s.cell j) ∧
      (∀ j, j < 2048 → ¬ SpriteHits rows (s.v x).toNat (s.v y).toNat j → t.cell j = s.cell j) ∧
      ((∃ j, SpriteHits rows (s.v x).toNat (s.v y).toNat j ∧ s.cell j = true) → t.v 15#4 = 1#8) ∧
      ((¬ ∃ j, SpriteHits rows (s.v x).toNat (s.v y).toNat j ∧ s.cell j = true) → t.v 15#4 = 0#8) ∧
      t.redraw = true ∧ t.pc = s.pc + 2#16)

/-- Drawing the same sprite twice at the same place restores every cell; the second draw leaves VF = 1 if a cell the sprite
falls on was 0 before the first (so, where those cells were clear, if the sprite has a 1 bit), else 0 (R67's pseudocode and
corner case, 90_conflicts.md C2; log 24). X and Y are not 15: the first draw writes VF. -/
def Obligations.DrawingTwiceRestoresTheScreen : Prop :=
  ∀ (x y n : Nibble) (s : State) (rows : List Byte), x ≠ 15#4 → y ≠ 15#4 →
    n = 0#4 ∨ s.ireg.toNat + n.toNat ≤ 4096 →
    rows = (List.range n.toNat).map (fun r => s.mem.read (s.ireg.toNat + r)) →
    ∃ t u, exec (.drw x y n) s = .next t ∧ exec (.drw x y n) t = .next u ∧ (∀ j, j < 2048 → u.cell j = s.cell j) ∧
      ((∃ j, SpriteHits rows (s.v x).toNat (s.v y).toNat j ∧ s.cell j = false) → u.v 15#4 = 1#8) ∧
      ((¬ ∃ j, SpriteHits rows (s.v x).toNat (s.v y).toNat j ∧ s.cell j = false) → u.v 15#4 = 0#8)

/-! ## Control transfer (41_control.md) -/

/-- 00EE with a call on the stack: SP goes down by one and PC becomes the entry plus 2; the entry is not cleared (R69; the
literal + 2 is D18). -/
def Obligations.ReturnResult : Prop :=
  Encodes 0x00EE#16 .ret ∧
  ∀ (s : State) (k : Fin 16), s.sp.val = k.val + 1 →
    Runs .ret s { sp := true } (fun t => t.sp.val = k.val ∧ t.pc = s.stack[k] + 2#16)

/-- 1NNN: PC becomes NNN, and nothing else changes (R70). -/
def Obligations.JumpResult : Prop :=
  ∀ nnn : Addr12, Encodes (0x1#4 ++ nnn) (.jp nnn) ∧
  ∀ s : State, Runs (.jp nnn) s {} (fun t => t.pc.toNat = nnn.toNat)

/-- 2NNN with room on the stack: the address of the instruction itself is pushed, SP goes up by one and PC becomes NNN
(R71). -/
def Obligations.CallResult : Prop :=
  ∀ nnn : Addr12, Encodes (0x2#4 ++ nnn) (.call nnn) ∧
  ∀ (s : State) (k : Fin 16), s.sp.val = k.val →
    Runs (.call nnn) s { stack := [k], sp := true } (fun t =>
      t.stack[k] = s.pc ∧ t.sp.val = k.val + 1 ∧ t.pc.toNat = nnn.toNat)

/-- A 17th nested call and a return with an empty stack fault and change nothing else (R71, R69; the spec's decisions D5
and D6). -/
def Obligations.StackFaultsAreTaken : Prop :=
  (∀ (nnn : Addr12) (s : State), s.sp.val = 16 → Raises (.call nnn) s .stackOverflow none) ∧
  (∀ s : State, s.sp.val = 0 → Raises .ret s .stackUnderflow none)

/-- A return after a call continues at the instruction after the call and restores SP (R69, R71; 90_conflicts.md C1). -/
def Obligations.ReturnUndoesCall : Prop :=
  ∀ (nnn : Addr12) (s : State), s.sp.val < 16 →
    ∃ t u, exec (.call nnn) s = .next t ∧ exec .ret t = .next u ∧ u.pc = s.pc + 2#16 ∧ u.sp = s.sp

/-- BNNN: PC becomes V0 + NNN + 2, never reduced to 12 bits (R72; the literal + 2 is D18). -/
def Obligations.JumpV0Result : Prop :=
  ∀ nnn : Addr12, Encodes (0xB#4 ++ nnn) (.jpV0 nnn) ∧
  ∀ s : State, Runs (.jpV0 nnn) s {} (fun t => t.pc.toNat = (s.v 0#4).toNat + nnn.toNat + 2)

/-! ## Skips (42_skip.md) -/

/-- 3XNN and 4XNN: PC goes to the next instruction, or past it when V[X] equals (differs from) NN; nothing else changes, and
the two always take opposite paths (R74, R75). -/
def Obligations.SkipOnImmediateResult : Prop :=
  ∀ (x : Nibble) (nn : Byte), Encodes (0x3#4 ++ x ++ nn) (.seImm x nn) ∧ Encodes (0x4#4 ++ x ++ nn) (.sneImm x nn) ∧
  ∀ s : State,
    Runs (.seImm x nn) s {} (fun t => t.pc = if s.v x = nn then s.pc + 4#16 else s.pc + 2#16) ∧
    Runs (.sneImm x nn) s {} (fun t => t.pc = if s.v x = nn then s.pc + 2#16 else s.pc + 4#16)

/-- 5XY0 and 9XY0: the same on V[X] and V[Y] (R76, R77; that the last digit must be 0 is the spec's decision D8). -/
def Obligations.SkipOnRegisterResult : Prop :=
  ∀ x y : Nibble, Encodes (0x5#4 ++ x ++ y ++ 0x0#4) (.seReg x y) ∧ Encodes (0x9#4 ++ x ++ y ++ 0x0#4) (.sneReg x y) ∧
  ∀ s : State,
    Runs (.seReg x y) s {} (fun t => t.pc = if s.v x = s.v y then s.pc + 4#16 else s.pc + 2#16) ∧
    Runs (.sneReg x y) s {} (fun t => t.pc = if s.v x = s.v y then s.pc + 2#16 else s.pc + 4#16)

/-- EX9E and EXA1: the same on the key numbered V[X]; above 15 they fault (R78, R79; the fault is the spec's decision
D7). -/
def Obligations.SkipOnKeyResult : Prop :=
  ∀ x : Nibble, Encodes (0xE#4 ++ x ++ 0x9E#8) (.skp x) ∧ Encodes (0xE#4 ++ x ++ 0xA1#8) (.sknp x) ∧
  ∀ s : State,
    (∀ k : Fin 16, (s.v x).toNat = k.val →
      Runs (.skp x) s {} (fun t => t.pc = if s.keys[k] then s.pc + 4#16 else s.pc + 2#16) ∧
      Runs (.sknp x) s {} (fun t => t.pc = if s.keys[k] then s.pc + 2#16 else s.pc + 4#16)) ∧
    (15 < (s.v x).toNat →
      Raises (.skp x) s .keyIndexOutOfRange (some (s.v x).toNat) ∧
      Raises (.sknp x) s .keyIndexOutOfRange (some (s.v x).toNat))

/-! ## Registers (43_alu.md) -/

/-- 6XNN: V[X] becomes NN (R82). -/
def Obligations.LoadImmediateResult : Prop :=
  ∀ (x : Nibble) (nn : Byte), Encodes (0x6#4 ++ x ++ nn) (.ldImm x nn) ∧
  ∀ s : State, Runs (.ldImm x nn) s { regs := [x] } (fun t => t.v x = nn ∧ t.pc = s.pc + 2#16)

/-- 7XNN: V[X] becomes V[X] + NN modulo 256; no flag (R83). -/
def Obligations.AddImmediateResult : Prop :=
  ∀ (x : Nibble) (nn : Byte), Encodes (0x7#4 ++ x ++ nn) (.addImm x nn) ∧
  ∀ s : State, Runs (.addImm x nn) s { regs := [x] } (fun t =>
    (t.v x).toNat = ((s.v x).toNat + nn.toNat) % 256 ∧ t.pc = s.pc + 2#16)

/-- 8XY0, 8XY1, 8XY2, 8XY3: V[X] becomes V[Y], or the bitwise OR, AND, exclusive OR of V[X] and V[Y]; VF is not reset
(R84, R85, R86, R87). -/
def Obligations.CopyAndLogicResult : Prop :=
  ∀ x y : Nibble,
    Encodes (0x8#4 ++ x ++ y ++ 0x0#4) (.ldReg x y) ∧ Encodes (0x8#4 ++ x ++ y ++ 0x1#4) (.orReg x y) ∧
    Encodes (0x8#4 ++ x ++ y ++ 0x2#4) (.andReg x y) ∧ Encodes (0x8#4 ++ x ++ y ++ 0x3#4) (.xorReg x y) ∧
  ∀ s : State,
    Runs (.ldReg x y) s { regs := [x] } (fun t => t.v x = s.v y ∧ t.pc = s.pc + 2#16) ∧
    Runs (.orReg x y) s { regs := [x] } (fun t =>
      (∀ b, (t.v x).getLsbD b = ((s.v x).getLsbD b || (s.v y).getLsbD b)) ∧ t.pc = s.pc + 2#16) ∧
    Runs (.andReg x y) s { regs := [x] } (fun t =>
      (∀ b, (t.v x).getLsbD b = ((s.v x).getLsbD b && (s.v y).getLsbD b)) ∧ t.pc = s.pc + 2#16) ∧
    Runs (.xorReg x y) s { regs := [x] } (fun t =>
      (∀ b, (t.v x).getLsbD b = ((s.v x).getLsbD b ^^ (s.v y).getLsbD b)) ∧ t.pc = s.pc + 2#16)

/-- 8XY4: V[X] becomes the sum modulo 256 and VF the carry, which is what VF holds when X is 15 (R88; for X = 15 the order of
writes is the spec's decision D11). -/
def Obligations.AddRegisterResult : Prop :=
  ∀ x y : Nibble, Encodes (0x8#4 ++ x ++ y ++ 0x4#4) (.addReg x y) ∧
  ∀ s : State, Runs (.addReg x y) s { regs := [x, 15#4] } (fun t =>
    (x ≠ 15#4 → (t.v x).toNat = ((s.v x).toNat + (s.v y).toNat) % 256) ∧
    t.v 15#4 = (if 256 ≤ (s.v x).toNat + (s.v y).toNat then 1#8 else 0#8) ∧ t.pc = s.pc + 2#16)

/-- 8XY5 and 8XY7: V[X] becomes V[X] - V[Y] (V[Y] - V[X]) modulo 256 and VF 0 on a borrow, else 1, which is what VF holds
when X is 15 (R89, R91; for X = 15 the order of writes is the spec's decision D11). -/
def Obligations.SubtractResult : Prop :=
  ∀ x y : Nibble, Encodes (0x8#4 ++ x ++ y ++ 0x5#4) (.subReg x y) ∧ Encodes (0x8#4 ++ x ++ y ++ 0x7#4) (.subnReg x y) ∧
  ∀ s : State,
    Runs (.subReg x y) s { regs := [x, 15#4] } (fun t =>
      (x ≠ 15#4 → (t.v x).toNat = (256 + (s.v x).toNat - (s.v y).toNat) % 256) ∧
      t.v 15#4 = (if (s.v x).toNat < (s.v y).toNat then 0#8 else 1#8) ∧ t.pc = s.pc + 2#16) ∧
    Runs (.subnReg x y) s { regs := [x, 15#4] } (fun t =>
      (x ≠ 15#4 → (t.v x).toNat = (256 + (s.v y).toNat - (s.v x).toNat) % 256) ∧
      t.v 15#4 = (if (s.v y).toNat < (s.v x).toNat then 0#8 else 1#8) ∧ t.pc = s.pc + 2#16)

/-- 8XY6 and 8XYE: V[X] is shifted by one bit and VF is the bit shifted out; Y is not used. For X = 15 the flag is written
first and then shifted: VF ends as 0, or as 0 or 2 (R90, R92; for X = 15 the spec's decision D11). -/
def Obligations.ShiftResult : Prop :=
  ∀ x y : Nibble, Encodes (0x8#4 ++ x ++ y ++ 0x6#4) (.shr x y) ∧ Encodes (0x8#4 ++ x ++ y ++ 0xE#4) (.shl x y) ∧
  ∀ s : State,
    Runs (.shr x y) s { regs := [x, 15#4] } (fun t =>
      (x ≠ 15#4 → (t.v x).toNat = (s.v x).toNat / 2 ∧ (t.v 15#4).toNat = (s.v x).toNat % 2) ∧
      (x = 15#4 → t.v 15#4 = 0#8) ∧ t.pc = s.pc + 2#16) ∧
    Runs (.shl x y) s { regs := [x, 15#4] } (fun t =>
      (x ≠ 15#4 → (t.v x).toNat = (s.v x).toNat * 2 % 256 ∧ (t.v 15#4).toNat = (s.v x).toNat / 128) ∧
      (x = 15#4 → t.v 15#4 = if 128 ≤ (s.v x).toNat then 2#8 else 0#8) ∧ t.pc = s.pc + 2#16)

/-- CXNN: V[X] becomes the drawn byte ANDed with NN, and the next CXNN draws another byte (R93). The byte is the free value
of log 3: nothing is known of it, so the statement holds for every byte. -/
def Obligations.RandomResult : Prop :=
  ∀ (x : Nibble) (nn : Byte), Encodes (0xC#4 ++ x ++ nn) (.rnd x nn) ∧
  ∀ s : State, Runs (.rnd x nn) s { regs := [x], draws := true } (fun t =>
    t.v x = Config.randomByte s.draws &&& nn ∧ (nn = 0#8 → t.v x = 0#8) ∧ t.draws = s.draws + 1 ∧ t.pc = s.pc + 2#16)

/-! ## Address register and memory (44_index_memory.md) -/

/-- ANNN: I becomes NNN (R94). -/
def Obligations.LoadAddressResult : Prop :=
  ∀ nnn : Addr12, Encodes (0xA#4 ++ nnn) (.ldI nnn) ∧
  ∀ s : State, Runs (.ldI nnn) s { ireg := true } (fun t => t.ireg.toNat = nnn.toNat ∧ t.pc = s.pc + 2#16)

/-- FX1E: I becomes I + V[X] modulo 65536, with no flag (R95). -/
def Obligations.AddToAddressResult : Prop :=
  ∀ x : Nibble, Encodes (0xF#4 ++ x ++ 0x1E#8) (.addI x) ∧
  ∀ s : State, Runs (.addI x) s { ireg := true } (fun t =>
    t.ireg.toNat = (s.ireg.toNat + (s.v x).toNat) % 65536 ∧ t.pc = s.pc + 2#16)

/-- FX29: I becomes V[X] * 5, for every V[X] (R96). -/
def Obligations.PointAtGlyphResult : Prop :=
  ∀ x : Nibble, Encodes (0xF#4 ++ x ++ 0x29#8) (.ldF x) ∧
  ∀ s : State, Runs (.ldF x) s { ireg := true } (fun t => t.ireg.toNat = (s.v x).toNat * 5 ∧ t.pc = s.pc + 2#16)

/-- FX33 in memory: the decimal digits of V[X] are at I, I + 1, I + 2, hundreds first, and no other byte changes; I is
unchanged (R97; the range is the spec's decision D3). -/
def Obligations.StoreBcdResult : Prop :=
  ∀ x : Nibble, Encodes (0xF#4 ++ x ++ 0x33#8) (.ldB x) ∧
  ∀ s : State, s.mem.wf = true → s.ireg.toNat + 2 ≤ 0xFFF →
    Runs (.ldB x) s { mem := List.range' s.ireg.toNat 3 } (fun t =>
      (t.mem.read s.ireg.toNat).toNat = (s.v x).toNat / 100 ∧
      (t.mem.read (s.ireg.toNat + 1)).toNat = (s.v x).toNat / 10 % 10 ∧
      (t.mem.read (s.ireg.toNat + 2)).toNat = (s.v x).toNat % 10 ∧ t.pc = s.pc + 2#16)

/-- FX55 in memory: V[0] to V[X] are at I to I + X, and no other byte changes; I is unchanged (R98; the spec's decisions D3
and D14). -/
def Obligations.StoreRegistersResult : Prop :=
  ∀ x : Nibble, Encodes (0xF#4 ++ x ++ 0x55#8) (.ldMemVx x) ∧
  ∀ s : State, s.mem.wf = true → s.ireg.toNat + x.toNat ≤ 0xFFF →
    Runs (.ldMemVx x) s { mem := List.range' s.ireg.toNat (x.toNat + 1) } (fun t =>
      (∀ k : Nibble, k.toNat ≤ x.toNat → t.mem.read (s.ireg.toNat + k.toNat) = s.v k) ∧ t.pc = s.pc + 2#16)

/-- FX65 in memory: V[0] to V[X] are the bytes at I to I + X, and the registers above X are unchanged; I is unchanged (R99;
the spec's decisions D3 and D14). -/
def Obligations.LoadRegistersResult : Prop :=
  ∀ x : Nibble, Encodes (0xF#4 ++ x ++ 0x65#8) (.ldVxMem x) ∧
  ∀ s : State, s.ireg.toNat + x.toNat ≤ 0xFFF →
    Runs (.ldVxMem x) s { regs := (List.range (x.toNat + 1)).map (BitVec.ofNat 4) } (fun t =>
      (∀ k : Nibble, k.toNat ≤ x.toNat → t.v k = s.mem.read (s.ireg.toNat + k.toNat)) ∧ t.pc = s.pc + 2#16)

/-- A data access above 0xFFF faults, with the lowest such address, and nothing is drawn, stored or loaded (R97, R98, R99,
40_display.md R67, 60_exceptions.md R109; the spec's decisions D3 and D9). -/
def Obligations.DataFaultsAreTaken : Prop :=
  ∀ s : State,
    (∀ x y n : Nibble, n ≠ 0#4 → 0x1000 < s.ireg.toNat + n.toNat →
      Raises (.drw x y n) s .memoryOutOfRange (some (max s.ireg.toNat 0x1000))) ∧
    (∀ x : Nibble, 0xFFF < s.ireg.toNat + 2 →
      Raises (.ldB x) s .memoryOutOfRange (some (max s.ireg.toNat 0x1000))) ∧
    (∀ x : Nibble, 0xFFF < s.ireg.toNat + x.toNat →
      Raises (.ldMemVx x) s .memoryOutOfRange (some (max s.ireg.toNat 0x1000)) ∧
      Raises (.ldVxMem x) s .memoryOutOfRange (some (max s.ireg.toNat 0x1000)))

/-- FX65 after FX55 with the same X and I restores V[0] to V[X], whatever the registers hold in between (R99's corner
case). -/
def Obligations.LoadAfterStoreRestoresRegisters : Prop :=
  ∀ (x : Nibble) (s : State) (regs : Vector Byte 16), s.mem.wf = true → s.ireg.toNat + x.toNat ≤ 0xFFF →
    ∃ t u, exec (.ldMemVx x) s = .next t ∧ exec (.ldVxMem x) { t with regs := regs } = .next u ∧
      ∀ k : Nibble, k.toNat ≤ x.toNat → u.v k = s.v k

/-! ## Timers and keys (45_timers_keys.md) -/

/-- FX07: V[X] becomes DT as it was before the step's tick; at the end of the step DT is one less if it was not 0
(R101). -/
def Obligations.ReadDelayTimerResult : Prop :=
  ∀ x : Nibble, Encodes (0xF#4 ++ x ++ 0x07#8) (.ldVxDt x) ∧
  ∀ s : State,
    Runs (.ldVxDt x) s { regs := [x] } (fun t => t.v x = s.dt ∧ t.pc = s.pc + 2#16) ∧
    Steps (.ldVxDt x) s (fun t => t.v x = s.dt ∧ t.dt.toNat = s.dt.toNat - 1)

/-- FX0A: with a key pressed, V[X] becomes the lowest pressed key's number and PC advances; with none, nothing changes, the
step still ticks the timers, and the next step fetches the same instruction (R102). -/
def Obligations.WaitKeyResult : Prop :=
  ∀ x : Nibble, Encodes (0xF#4 ++ x ++ 0x0A#8) (.ldVxK x) ∧
  ∀ s : State,
    (∀ k : Fin 16, s.keys[k] = true → (∀ j : Fin 16, j < k → s.keys[j] = false) →
      Runs (.ldVxK x) s { regs := [x] } (fun t => (t.v x).toNat = k.val ∧ t.pc = s.pc + 2#16)) ∧
    ((∀ k : Fin 16, s.keys[k] = false) →
      Runs (.ldVxK x) s {} (fun t => t.pc = s.pc) ∧
      Steps (.ldVxK x) s (fun t => t.pc = s.pc ∧ t.fault = none ∧ t.fetch = s.fetch ∧ (∀ y, t.v y = s.v y) ∧
        t.dt.toNat = s.dt.toNat - 1 ∧ t.st.toNat = s.st.toNat - 1))

/-- FX15: DT becomes V[X], and V[X] - 1 (or 0) at the end of the step (R103). -/
def Obligations.SetDelayTimerResult : Prop :=
  ∀ x : Nibble, Encodes (0xF#4 ++ x ++ 0x15#8) (.ldDtVx x) ∧
  ∀ s : State,
    Runs (.ldDtVx x) s { dt := true } (fun t => t.dt = s.v x ∧ t.pc = s.pc + 2#16) ∧
    Steps (.ldDtVx x) s (fun t => t.dt.toNat = (s.v x).toNat - 1)

/-- FX18: ST becomes V[X], and V[X] - 1 (or 0) at the end of the step, whose tone signal is true exactly when V[X] is 1
(R104). -/
def Obligations.SetSoundTimerResult : Prop :=
  ∀ x : Nibble, Encodes (0xF#4 ++ x ++ 0x18#8) (.ldStVx x) ∧
  ∀ s : State,
    Runs (.ldStVx x) s { st := true } (fun t => t.st = s.v x ∧ t.pc = s.pc + 2#16) ∧
    Steps (.ldStVx x) s (fun t => t.st.toNat = (s.v x).toNat - 1 ∧ (t.tone = true ↔ (s.v x).toNat = 1))
end

