-- ==== Sys2Proof/Laws/Decode.lean ====
section
/-! SUPPORT. Opcodes as nibbles: the fields of an opcode put together, and when a row of the opcode map matches. -/

namespace Sys2Proof

/-! ## Taking an opcode apart -/

@[simp] theorem fieldFamily_nibbles (f x y n : Nibble) : fieldFamily (f ++ x ++ y ++ n : Word) = f := by
  unfold fieldFamily
  rw [BitVec.extractLsb'_append_eq_of_le (by decide), BitVec.extractLsb'_append_eq_of_le (by decide)]
  exact BitVec.extractLsb'_append_eq_left

@[simp] theorem fieldX_nibbles (f x y n : Nibble) : fieldX (f ++ x ++ y ++ n : Word) = x := by
  unfold fieldX
  rw [BitVec.extractLsb'_append_eq_of_le (by decide), BitVec.extractLsb'_append_eq_of_le (by decide)]
  exact BitVec.extractLsb'_append_eq_right

@[simp] theorem fieldY_nibbles (f x y n : Nibble) : fieldY (f ++ x ++ y ++ n : Word) = y := by
  unfold fieldY
  rw [BitVec.extractLsb'_append_eq_of_le (by decide)]
  exact BitVec.extractLsb'_append_eq_right

@[simp] theorem fieldN_nibbles (f x y n : Nibble) : fieldN (f ++ x ++ y ++ n : Word) = n :=
  BitVec.extractLsb'_append_eq_right

@[simp] theorem fieldX_byte (f x : Nibble) (nn : Byte) : fieldX (f ++ x ++ nn : Word) = x := by
  unfold fieldX
  rw [BitVec.extractLsb'_append_eq_of_le (by decide)]
  exact BitVec.extractLsb'_append_eq_right

@[simp] theorem fieldNN_byte (f x : Nibble) (nn : Byte) : fieldNN (f ++ x ++ nn : Word) = nn :=
  BitVec.extractLsb'_append_eq_right

@[simp] theorem fieldNNN_addr (f : Nibble) (nnn : Addr12) : fieldNNN (f ++ nnn : Word) = nnn :=
  BitVec.extractLsb'_append_eq_right

/-- An opcode is its four nibbles. -/
theorem word_eq_nibbles (op : Word) : (fieldFamily op ++ fieldX op ++ fieldY op ++ fieldN op : Word) = op := by
  unfold fieldFamily fieldX fieldY fieldN
  have h1 : (op.extractLsb' 12 4 ++ op.extractLsb' 8 4 : BitVec 8) = op.extractLsb' 8 8 :=
    BitVec.extractLsb'_append_extractLsb'_eq_extractLsb' rfl
  have h2 : (op.extractLsb' 8 8 ++ op.extractLsb' 4 4 : BitVec 12) = op.extractLsb' 4 12 :=
    BitVec.extractLsb'_append_extractLsb'_eq_extractLsb' rfl
  have h3 : (op.extractLsb' 4 12 ++ op.extractLsb' 0 4 : BitVec 16) = op.extractLsb' 0 16 :=
    BitVec.extractLsb'_append_extractLsb'_eq_extractLsb' rfl
  rw [h1, h2, h3]
  exact BitVec.extractLsb'_eq_self

/-- Every opcode is some family, X, Y and N. -/
theorem exists_nibbles (op : Word) : ∃ f x y n : Nibble, op = (f ++ x ++ y ++ n : Word) :=
  ⟨_, _, _, _, (word_eq_nibbles op).symm⟩

/-- A byte is its two nibbles. -/
theorem exists_nibbles_byte (b : Byte) : ∃ y n : Nibble, b = (y ++ n : Byte) :=
  ⟨b.extractLsb' 4 4, b.extractLsb' 0 4, (BitVec.extractLsb'_append_extractLsb' (w := 4) (len := 4) (x := b)).symm⟩

@[simp] theorem fieldNN_nibbles (f x y n : Nibble) : fieldNN (f ++ x ++ y ++ n : Word) = (y ++ n : Byte) := by
  have h1 : fieldNN (f ++ x ++ y ++ n : Word) =
      (fieldY (f ++ x ++ y ++ n : Word) ++ fieldN (f ++ x ++ y ++ n : Word) : Byte) := by
    unfold fieldNN fieldY fieldN
    exact (BitVec.extractLsb'_append_extractLsb'_eq_extractLsb' (start₂ := 4) (len₂ := 4) (len₁ := 4) rfl).symm
  rw [h1, fieldY_nibbles, fieldN_nibbles]

@[simp] theorem fieldNNN_nibbles (f x y n : Nibble) : fieldNNN (f ++ x ++ y ++ n : Word) = (x ++ y ++ n : Addr12) := by
  have h1 : fieldNNN (f ++ x ++ y ++ n : Word) =
      (fieldX (f ++ x ++ y ++ n : Word) ++ fieldNN (f ++ x ++ y ++ n : Word) : Addr12) := by
    unfold fieldNNN fieldX fieldNN
    exact (BitVec.extractLsb'_append_extractLsb'_eq_extractLsb' (start₂ := 8) (len₂ := 4) (len₁ := 8) rfl).symm
  rw [h1, fieldX_nibbles, fieldNN_nibbles]
  exact BitVec.append_assoc'

/-! ## Matching -/

/-- A masked comparison of opcodes is one of each nibble. -/
theorem and_eq_iff_nibbles (f x y n : Nibble) (m p : Word) :
    ((f ++ x ++ y ++ n : Word) &&& m = p) ↔
      (f &&& fieldFamily m = fieldFamily p ∧ x &&& fieldX m = fieldX p ∧ y &&& fieldY m = fieldY p ∧
        n &&& fieldN m = fieldN p) := by
  constructor
  · rintro rfl
    obtain ⟨mf, mx, my, mn, rfl⟩ := exists_nibbles m
    rw [BitVec.and_append, BitVec.and_append, BitVec.and_append]
    simp
  · rintro ⟨hf, hx, hy, hn⟩
    obtain ⟨mf, mx, my, mn, rfl⟩ := exists_nibbles m
    obtain ⟨pf, px, py, pn, rfl⟩ := exists_nibbles p
    rw [BitVec.and_append, BitVec.and_append, BitVec.and_append]
    simp only [fieldFamily_nibbles, fieldX_nibbles, fieldY_nibbles, fieldN_nibbles] at hf hx hy hn
    rw [hf, hx, hy, hn]

/-- When a row of the opcode map matches, nibble by nibble. -/
theorem matchesOpcode_nibbles (r : OpcodeRow) (f x y n : Nibble) :
    r.matchesOpcode (f ++ x ++ y ++ n : Word) =
      (f &&& fieldFamily r.mask == fieldFamily r.pattern && (x &&& fieldX r.mask == fieldX r.pattern) &&
        (y &&& fieldY r.mask == fieldY r.pattern) && (n &&& fieldN r.mask == fieldN r.pattern)) := by
  rw [Bool.eq_iff_iff]
  simp only [OpcodeRow.matchesOpcode, beq_iff_eq, Bool.and_eq_true, and_eq_iff_nibbles, and_assoc]

end Sys2Proof
end

