-- ==== Sys2Proof/Laws/Memory.lean ====
section
/-! SUPPORT. Memory: reading after writing, blocks, and the canonical form every operation keeps. -/

namespace Sys2Proof.Machine

/-! ## One byte -/

theorem Memory.read_put_other {a a' : Nat} (v : Byte) (rest : Memory) (h : a' ≠ a) :
    Memory.read (Memory.put a v rest) a' = Memory.read rest a' := by
  unfold Memory.put
  split
  · rfl
  · simp [Memory.read, h]

/-- A write leaves every other byte alone, whatever the list (20_memory.md R48). -/
theorem Memory.read_write_other (m : Memory) {a a' : Nat} (v : Byte) (h : a' ≠ a) :
    (m.write a v).read a' = m.read a' := by
  induction m with
  | nil => exact Memory.read_put_other v [] h
  | cons c rest ih =>
    obtain ⟨b, w⟩ := c
    unfold Memory.write
    split
    · exact Memory.read_put_other v _ h
    · split
      · next hab => rw [Memory.read_put_other v _ h]; simp [Memory.read, ← hab, h]
      · simp only [Memory.read, ih]

theorem Memory.wfFrom_mono {lo lo' : Nat} (m : Memory) (h : lo' ≤ lo) (hm : Memory.wfFrom lo m = true) :
    Memory.wfFrom lo' m = true := by
  cases m with
  | nil => rfl
  | cons c rest =>
    simp only [Memory.wfFrom, Bool.and_eq_true, decide_eq_true_eq] at hm ⊢
    exact ⟨⟨⟨by omega, hm.1.1.2⟩, hm.1.2⟩, hm.2⟩

/-- Below the first listed address everything holds its reset value. -/
theorem Memory.read_below {lo a : Nat} (m : Memory) (hm : Memory.wfFrom lo m = true) (h : a < lo) :
    m.read a = Memory.background a := by
  induction m generalizing lo with
  | nil => rfl
  | cons c rest ih =>
    obtain ⟨b, w⟩ := c
    simp only [Memory.wfFrom, Bool.and_eq_true, decide_eq_true_eq] at hm
    have hne : a ≠ b := by omega
    simp only [Memory.read, hne, if_false]
    exact ih hm.2 (by omega)

theorem Memory.read_put_same {a : Nat} (v : Byte) (rest : Memory) (h : Memory.wfFrom (a + 1) rest = true) :
    Memory.read (Memory.put a v rest) a = v := by
  unfold Memory.put
  split
  · next hv => rw [hv]; exact Memory.read_below rest h (by omega)
  · simp [Memory.read]

/-- A write puts its byte at its address (R48). -/
theorem Memory.read_write_same_from {lo a : Nat} (m : Memory) (v : Byte) (hm : Memory.wfFrom lo m = true) :
    (m.write a v).read a = v := by
  induction m generalizing lo with
  | nil => exact Memory.read_put_same v [] rfl
  | cons c rest ih =>
    obtain ⟨b, w⟩ := c
    simp only [Memory.wfFrom, Bool.and_eq_true, decide_eq_true_eq] at hm
    unfold Memory.write
    split
    · next hab =>
      refine Memory.read_put_same v _ ?_
      simp only [Memory.wfFrom, Bool.and_eq_true, decide_eq_true_eq]
      exact ⟨⟨⟨by omega, hm.1.1.2⟩, hm.1.2⟩, hm.2⟩
    · split
      · next hab => subst hab; exact Memory.read_put_same v _ hm.2
      · next hab => simp only [Memory.read, hab, if_false]; exact ih hm.2

theorem Memory.read_write_same (m : Memory) (a : Nat) (v : Byte) (hm : m.wf = true) : (m.write a v).read a = v :=
  Memory.read_write_same_from m v hm

theorem Memory.read_write (m : Memory) (a a' : Nat) (v : Byte) (hm : m.wf = true) :
    (m.write a v).read a' = if a' = a then v else m.read a' := by
  split
  · next h => rw [h]; exact Memory.read_write_same m a v hm
  · next h => exact Memory.read_write_other m v h

theorem Memory.put_wfFrom {lo a : Nat} (v : Byte) (rest : Memory) (ha : a < 4096) (hlo : lo ≤ a)
    (h : Memory.wfFrom (a + 1) rest = true) : Memory.wfFrom lo (Memory.put a v rest) = true := by
  unfold Memory.put
  split
  · exact Memory.wfFrom_mono rest (by omega) h
  · next hv =>
    simp only [Memory.wfFrom, Bool.and_eq_true, decide_eq_true_eq]
    exact ⟨⟨⟨hlo, ha⟩, hv⟩, h⟩

theorem Memory.write_wfFrom {lo a : Nat} (m : Memory) (v : Byte) (ha : a < 4096) (hlo : lo ≤ a)
    (hm : Memory.wfFrom lo m = true) : Memory.wfFrom lo (m.write a v) = true := by
  induction m generalizing lo with
  | nil => exact Memory.put_wfFrom v [] ha hlo rfl
  | cons c rest ih =>
    obtain ⟨b, w⟩ := c
    simp only [Memory.wfFrom, Bool.and_eq_true, decide_eq_true_eq] at hm
    unfold Memory.write
    split
    · next hab =>
      refine Memory.put_wfFrom v _ ha hlo ?_
      simp only [Memory.wfFrom, Bool.and_eq_true, decide_eq_true_eq]
      exact ⟨⟨⟨by omega, hm.1.1.2⟩, hm.1.2⟩, hm.2⟩
    · split
      · next hab => subst hab; exact Memory.put_wfFrom v _ ha hlo hm.2
      · next h1 h2 =>
        simp only [Memory.wfFrom, Bool.and_eq_true, decide_eq_true_eq]
        exact ⟨hm.1, ih (by omega) hm.2⟩

/-- A write in the address space keeps the canonical form. -/
theorem Memory.write_wf (m : Memory) (v : Byte) {a : Nat} (ha : a < 4096) (hm : m.wf = true) :
    (m.write a v).wf = true :=
  Memory.write_wfFrom m v ha (Nat.zero_le a) hm

/-- In canonical form, memories that read alike are the same list. -/
theorem Memory.ext_from {lo : Nat} (m m' : Memory) (hm : Memory.wfFrom lo m = true) (hm' : Memory.wfFrom lo m' = true)
    (h : ∀ a, m.read a = m'.read a) : m = m' := by
  induction m generalizing lo m' with
  | nil =>
    cases m' with
    | nil => rfl
    | cons c rest =>
      obtain ⟨b, w⟩ := c
      simp only [Memory.wfFrom, Bool.and_eq_true, decide_eq_true_eq] at hm'
      have := h b
      simp only [Memory.read, if_true] at this
      exact absurd this.symm hm'.1.2
  | cons c rest ih =>
    obtain ⟨b, w⟩ := c
    simp only [Memory.wfFrom, Bool.and_eq_true, decide_eq_true_eq] at hm
    cases m' with
    | nil =>
      have := h b
      simp only [Memory.read, if_true] at this
      exact absurd this hm.1.2
    | cons c' rest' =>
      obtain ⟨b', w'⟩ := c'
      simp only [Memory.wfFrom, Bool.and_eq_true, decide_eq_true_eq] at hm'
      have hb : b = b' := by
        rcases Nat.lt_trichotomy b b' with hlt | heq | hgt
        · have h1 := h b
          have hne : b ≠ b' := by omega
          simp only [Memory.read, if_true, hne, if_false] at h1
          rw [Memory.read_below rest' hm'.2 (by omega)] at h1
          exact absurd h1 hm.1.2
        · exact heq
        · have h1 := h b'
          have hne : b' ≠ b := by omega
          simp only [Memory.read, if_true, hne, if_false] at h1
          rw [Memory.read_below rest hm.2 (by omega)] at h1
          exact absurd h1.symm hm'.1.2
      subst hb
      have hw : w = w' := by simpa [Memory.read] using h b
      subst hw
      congr 1
      refine ih rest' hm.2 hm'.2 fun a => ?_
      by_cases ha : a = b
      · subst ha
        rw [Memory.read_below rest hm.2 (by omega), Memory.read_below rest' hm'.2 (by omega)]
      · simpa [Memory.read, ha] using h a

theorem Memory.ext {m m' : Memory} (hm : m.wf = true) (hm' : m'.wf = true) (h : ∀ a, m.read a = m'.read a) : m = m' :=
  Memory.ext_from m m' hm hm' h

/-! ## Blocks -/

/-- Bytes below the block are as before. -/
theorem Memory.read_writeBytes_below (m : Memory) (a a' : Nat) (bytes : List Byte) (h : a' < a) :
    (m.writeBytes a bytes).read a' = m.read a' := by
  induction bytes generalizing m a with
  | nil => rfl
  | cons v vs ih =>
    rw [Memory.writeBytes, ih _ _ (by omega)]
    exact Memory.read_write_other m v (by omega)

/-- Bytes outside the block are as before. -/
theorem Memory.read_writeBytes_outside (m : Memory) (a a' : Nat) (bytes : List Byte)
    (h : a' < a ∨ a + bytes.length ≤ a') : (m.writeBytes a bytes).read a' = m.read a' := by
  induction bytes generalizing m a with
  | nil => rfl
  | cons v vs ih =>
    simp only [List.length_cons] at h
    rw [Memory.writeBytes, ih _ _ (by omega)]
    exact Memory.read_write_other m v (by omega)

theorem Memory.writeBytes_wf (m : Memory) (a : Nat) (bytes : List Byte) (h : a + bytes.length ≤ 4096)
    (hm : m.wf = true) : (m.writeBytes a bytes).wf = true := by
  induction bytes generalizing m a with
  | nil => exact hm
  | cons v vs ih =>
    simp only [List.length_cons] at h
    exact ih _ _ (by omega) (Memory.write_wf m v (by omega) hm)

/-- Bytes inside the block are the bytes written. -/
theorem Memory.read_writeBytes_inside (m : Memory) (a k : Nat) (bytes : List Byte) (hk : k < bytes.length)
    (h : a + bytes.length ≤ 4096) (hm : m.wf = true) : (m.writeBytes a bytes).read (a + k) = bytes[k] := by
  induction bytes generalizing m a k with
  | nil => simp at hk
  | cons v vs ih =>
    simp only [List.length_cons] at h hk
    cases k with
    | zero =>
      rw [Memory.writeBytes, Nat.add_zero, Memory.read_writeBytes_below _ _ _ _ (by omega)]
      exact Memory.read_write_same m a v hm
    | succ k =>
      rw [Memory.writeBytes]
      have := ih (m.write a v) (a + 1) k (by omega) (by omega) (Memory.write_wf m v (by omega) hm)
      simpa [Nat.add_assoc, Nat.add_comm 1 k] using this

/-- Which address is recorded: none when the whole block is in memory, else the least address above 0xFFF. -/
theorem firstOutOfRange_eq (base n : Nat) :
    firstOutOfRange base n = if n = 0 ∨ base + n ≤ 4096 then none else some (max base 4096) := by
  unfold firstOutOfRange
  split
  · next h =>
    simp only [List.find?_eq_none, List.mem_map, List.mem_range, decide_eq_true_eq]
    rintro a ⟨k, hk, rfl⟩
    omega
  · next h =>
    have hn : n ≠ 0 := fun e => h (Or.inl e)
    have hb : ¬ base + n ≤ 4096 := fun e => h (Or.inr e)
    have hf : (List.range n).find? ((fun a => decide (0xFFF < a)) ∘ (base + ·)) = some (max base 4096 - base) := by
      rw [List.find?_range_eq_some]
      simp only [Function.comp, decide_eq_true_eq, List.mem_range, Bool.not_eq_eq_eq_not, Bool.not_true,
        decide_eq_false_iff_not]
      exact ⟨by omega, by omega, fun j hj => by omega⟩
    rw [List.find?_map, hf]
    simp only [Option.map_some, Option.some.injEq]
    omega

theorem firstOutOfRange_none (base n : Nat) : firstOutOfRange base n = none ↔ n = 0 ∨ base + n ≤ 4096 := by
  rw [firstOutOfRange_eq]; split <;> simp_all

/-- Everything a block read can do. -/
theorem Memory.readBlock_eq (m : Memory) (base n : Nat) :
    m.readBlock base n = if n = 0 ∨ base + n ≤ 4096 then .ok ((List.range n).map (fun k => m.read (base + k)))
      else .error (max base 4096) := by
  unfold Memory.readBlock
  rw [firstOutOfRange_eq]
  split <;> rename_i h <;> split at h <;> simp_all

/-- Everything a block write can do. -/
theorem Memory.writeBlock_eq (m : Memory) (base : Nat) (bytes : List Byte) :
    m.writeBlock base bytes = if bytes.length = 0 ∨ base + bytes.length ≤ 4096 then .ok (m.writeBytes base bytes)
      else .error (max base 4096) := by
  unfold Memory.writeBlock
  rw [firstOutOfRange_eq]
  split <;> rename_i h <;> split at h <;> simp_all

/-- A block write that is made keeps the canonical form. -/
theorem Memory.writeBlock_wf {m m' : Memory} {base : Nat} {bytes : List Byte} (h : m.writeBlock base bytes = .ok m')
    (hm : m.wf = true) : m'.wf = true := by
  rw [Memory.writeBlock_eq] at h
  split at h
  · next hr =>
    cases h
    cases bytes with
    | nil => exact hm
    | cons v vs => exact Memory.writeBytes_wf m base _ (by simpa using hr) hm
  · cases h

/-- A block write that is made changes no byte outside the block. -/
theorem Memory.writeBlock_outside {m m' : Memory} {base a : Nat} {bytes : List Byte}
    (h : m.writeBlock base bytes = .ok m') (ha : a < base ∨ base + bytes.length ≤ a) : m'.read a = m.read a := by
  rw [Memory.writeBlock_eq] at h
  split at h
  · cases h; exact Memory.read_writeBytes_outside m base a bytes ha
  · cases h

/-- A block write that is made leaves its bytes in the block. -/
theorem Memory.writeBlock_inside {m m' : Memory} {base k : Nat} {bytes : List Byte}
    (h : m.writeBlock base bytes = .ok m') (hm : m.wf = true) (hk : k < bytes.length) :
    m'.read (base + k) = bytes[k] := by
  rw [Memory.writeBlock_eq] at h
  split at h
  · next hr => cases h; exact Memory.read_writeBytes_inside m base k bytes hk (by omega) hm
  · cases h

theorem State.reset_mem_wf : State.reset.mem.wf = true := rfl

end Sys2Proof.Machine
end

