-- ==== Sys2Proof/Laws/State.lean ====
section
/-! SUPPORT. What each update of the state does to each field: one lemma per field and update, true by rfl. -/

namespace Sys2Proof.Machine

/-! ## setV -/

@[simp] theorem State.setV_regs (s : State) (x : Nibble) (b : Byte) : (s.setV x b).regs = s.regs.set x.toNat b x.isLt := rfl
@[simp] theorem State.setV_ireg (s : State) (x : Nibble) (b : Byte) : (s.setV x b).ireg = s.ireg := rfl
@[simp] theorem State.setV_pc (s : State) (x : Nibble) (b : Byte) : (s.setV x b).pc = s.pc := rfl
@[simp] theorem State.setV_stack (s : State) (x : Nibble) (b : Byte) : (s.setV x b).stack = s.stack := rfl
@[simp] theorem State.setV_sp (s : State) (x : Nibble) (b : Byte) : (s.setV x b).sp = s.sp := rfl
@[simp] theorem State.setV_dt (s : State) (x : Nibble) (b : Byte) : (s.setV x b).dt = s.dt := rfl
@[simp] theorem State.setV_st (s : State) (x : Nibble) (b : Byte) : (s.setV x b).st = s.st := rfl
@[simp] theorem State.setV_fb (s : State) (x : Nibble) (b : Byte) : (s.setV x b).fb = s.fb := rfl
@[simp] theorem State.setV_keys (s : State) (x : Nibble) (b : Byte) : (s.setV x b).keys = s.keys := rfl
@[simp] theorem State.setV_mem (s : State) (x : Nibble) (b : Byte) : (s.setV x b).mem = s.mem := rfl
@[simp] theorem State.setV_fault (s : State) (x : Nibble) (b : Byte) : (s.setV x b).fault = s.fault := rfl
@[simp] theorem State.setV_trace (s : State) (x : Nibble) (b : Byte) : (s.setV x b).trace = s.trace := rfl
@[simp] theorem State.setV_redraw (s : State) (x : Nibble) (b : Byte) : (s.setV x b).redraw = s.redraw := rfl
@[simp] theorem State.setV_tone (s : State) (x : Nibble) (b : Byte) : (s.setV x b).tone = s.tone := rfl
@[simp] theorem State.setV_draws (s : State) (x : Nibble) (b : Byte) : (s.setV x b).draws = s.draws := rfl

/-! ## setI -/

@[simp] theorem State.setI_regs (s : State) (w : Word) : (s.setI w).regs = s.regs := rfl
@[simp] theorem State.setI_ireg (s : State) (w : Word) : (s.setI w).ireg = w := rfl
@[simp] theorem State.setI_pc (s : State) (w : Word) : (s.setI w).pc = s.pc := rfl
@[simp] theorem State.setI_stack (s : State) (w : Word) : (s.setI w).stack = s.stack := rfl
@[simp] theorem State.setI_sp (s : State) (w : Word) : (s.setI w).sp = s.sp := rfl
@[simp] theorem State.setI_dt (s : State) (w : Word) : (s.setI w).dt = s.dt := rfl
@[simp] theorem State.setI_st (s : State) (w : Word) : (s.setI w).st = s.st := rfl
@[simp] theorem State.setI_fb (s : State) (w : Word) : (s.setI w).fb = s.fb := rfl
@[simp] theorem State.setI_keys (s : State) (w : Word) : (s.setI w).keys = s.keys := rfl
@[simp] theorem State.setI_mem (s : State) (w : Word) : (s.setI w).mem = s.mem := rfl
@[simp] theorem State.setI_fault (s : State) (w : Word) : (s.setI w).fault = s.fault := rfl
@[simp] theorem State.setI_trace (s : State) (w : Word) : (s.setI w).trace = s.trace := rfl
@[simp] theorem State.setI_redraw (s : State) (w : Word) : (s.setI w).redraw = s.redraw := rfl
@[simp] theorem State.setI_tone (s : State) (w : Word) : (s.setI w).tone = s.tone := rfl
@[simp] theorem State.setI_draws (s : State) (w : Word) : (s.setI w).draws = s.draws := rfl

/-! ## setDt -/

@[simp] theorem State.setDt_regs (s : State) (b : Byte) : (s.setDt b).regs = s.regs := rfl
@[simp] theorem State.setDt_ireg (s : State) (b : Byte) : (s.setDt b).ireg = s.ireg := rfl
@[simp] theorem State.setDt_pc (s : State) (b : Byte) : (s.setDt b).pc = s.pc := rfl
@[simp] theorem State.setDt_stack (s : State) (b : Byte) : (s.setDt b).stack = s.stack := rfl
@[simp] theorem State.setDt_sp (s : State) (b : Byte) : (s.setDt b).sp = s.sp := rfl
@[simp] theorem State.setDt_dt (s : State) (b : Byte) : (s.setDt b).dt = b := rfl
@[simp] theorem State.setDt_st (s : State) (b : Byte) : (s.setDt b).st = s.st := rfl
@[simp] theorem State.setDt_fb (s : State) (b : Byte) : (s.setDt b).fb = s.fb := rfl
@[simp] theorem State.setDt_keys (s : State) (b : Byte) : (s.setDt b).keys = s.keys := rfl
@[simp] theorem State.setDt_mem (s : State) (b : Byte) : (s.setDt b).mem = s.mem := rfl
@[simp] theorem State.setDt_fault (s : State) (b : Byte) : (s.setDt b).fault = s.fault := rfl
@[simp] theorem State.setDt_trace (s : State) (b : Byte) : (s.setDt b).trace = s.trace := rfl
@[simp] theorem State.setDt_redraw (s : State) (b : Byte) : (s.setDt b).redraw = s.redraw := rfl
@[simp] theorem State.setDt_tone (s : State) (b : Byte) : (s.setDt b).tone = s.tone := rfl
@[simp] theorem State.setDt_draws (s : State) (b : Byte) : (s.setDt b).draws = s.draws := rfl

/-! ## setSt -/

@[simp] theorem State.setSt_regs (s : State) (b : Byte) : (s.setSt b).regs = s.regs := rfl
@[simp] theorem State.setSt_ireg (s : State) (b : Byte) : (s.setSt b).ireg = s.ireg := rfl
@[simp] theorem State.setSt_pc (s : State) (b : Byte) : (s.setSt b).pc = s.pc := rfl
@[simp] theorem State.setSt_stack (s : State) (b : Byte) : (s.setSt b).stack = s.stack := rfl
@[simp] theorem State.setSt_sp (s : State) (b : Byte) : (s.setSt b).sp = s.sp := rfl
@[simp] theorem State.setSt_dt (s : State) (b : Byte) : (s.setSt b).dt = s.dt := rfl
@[simp] theorem State.setSt_st (s : State) (b : Byte) : (s.setSt b).st = b := rfl
@[simp] theorem State.setSt_fb (s : State) (b : Byte) : (s.setSt b).fb = s.fb := rfl
@[simp] theorem State.setSt_keys (s : State) (b : Byte) : (s.setSt b).keys = s.keys := rfl
@[simp] theorem State.setSt_mem (s : State) (b : Byte) : (s.setSt b).mem = s.mem := rfl
@[simp] theorem State.setSt_fault (s : State) (b : Byte) : (s.setSt b).fault = s.fault := rfl
@[simp] theorem State.setSt_trace (s : State) (b : Byte) : (s.setSt b).trace = s.trace := rfl
@[simp] theorem State.setSt_redraw (s : State) (b : Byte) : (s.setSt b).redraw = s.redraw := rfl
@[simp] theorem State.setSt_tone (s : State) (b : Byte) : (s.setSt b).tone = s.tone := rfl
@[simp] theorem State.setSt_draws (s : State) (b : Byte) : (s.setSt b).draws = s.draws := rfl

/-! ## setMem -/

@[simp] theorem State.setMem_regs (s : State) (m : Memory) : (s.setMem m).regs = s.regs := rfl
@[simp] theorem State.setMem_ireg (s : State) (m : Memory) : (s.setMem m).ireg = s.ireg := rfl
@[simp] theorem State.setMem_pc (s : State) (m : Memory) : (s.setMem m).pc = s.pc := rfl
@[simp] theorem State.setMem_stack (s : State) (m : Memory) : (s.setMem m).stack = s.stack := rfl
@[simp] theorem State.setMem_sp (s : State) (m : Memory) : (s.setMem m).sp = s.sp := rfl
@[simp] theorem State.setMem_dt (s : State) (m : Memory) : (s.setMem m).dt = s.dt := rfl
@[simp] theorem State.setMem_st (s : State) (m : Memory) : (s.setMem m).st = s.st := rfl
@[simp] theorem State.setMem_fb (s : State) (m : Memory) : (s.setMem m).fb = s.fb := rfl
@[simp] theorem State.setMem_keys (s : State) (m : Memory) : (s.setMem m).keys = s.keys := rfl
@[simp] theorem State.setMem_mem (s : State) (m : Memory) : (s.setMem m).mem = m := rfl
@[simp] theorem State.setMem_fault (s : State) (m : Memory) : (s.setMem m).fault = s.fault := rfl
@[simp] theorem State.setMem_trace (s : State) (m : Memory) : (s.setMem m).trace = s.trace := rfl
@[simp] theorem State.setMem_redraw (s : State) (m : Memory) : (s.setMem m).redraw = s.redraw := rfl
@[simp] theorem State.setMem_tone (s : State) (m : Memory) : (s.setMem m).tone = s.tone := rfl
@[simp] theorem State.setMem_draws (s : State) (m : Memory) : (s.setMem m).draws = s.draws := rfl

/-! ## setPc -/

@[simp] theorem State.setPc_regs (s : State) (w : Word) : (s.setPc w).regs = s.regs := rfl
@[simp] theorem State.setPc_ireg (s : State) (w : Word) : (s.setPc w).ireg = s.ireg := rfl
@[simp] theorem State.setPc_pc (s : State) (w : Word) : (s.setPc w).pc = w := rfl
@[simp] theorem State.setPc_stack (s : State) (w : Word) : (s.setPc w).stack = s.stack := rfl
@[simp] theorem State.setPc_sp (s : State) (w : Word) : (s.setPc w).sp = s.sp := rfl
@[simp] theorem State.setPc_dt (s : State) (w : Word) : (s.setPc w).dt = s.dt := rfl
@[simp] theorem State.setPc_st (s : State) (w : Word) : (s.setPc w).st = s.st := rfl
@[simp] theorem State.setPc_fb (s : State) (w : Word) : (s.setPc w).fb = s.fb := rfl
@[simp] theorem State.setPc_keys (s : State) (w : Word) : (s.setPc w).keys = s.keys := rfl
@[simp] theorem State.setPc_mem (s : State) (w : Word) : (s.setPc w).mem = s.mem := rfl
@[simp] theorem State.setPc_fault (s : State) (w : Word) : (s.setPc w).fault = s.fault := rfl
@[simp] theorem State.setPc_trace (s : State) (w : Word) : (s.setPc w).trace = s.trace := rfl
@[simp] theorem State.setPc_redraw (s : State) (w : Word) : (s.setPc w).redraw = s.redraw := rfl
@[simp] theorem State.setPc_tone (s : State) (w : Word) : (s.setPc w).tone = s.tone := rfl
@[simp] theorem State.setPc_draws (s : State) (w : Word) : (s.setPc w).draws = s.draws := rfl

/-! ## advance -/

@[simp] theorem State.advance_regs (s : State) : s.advance.regs = s.regs := rfl
@[simp] theorem State.advance_ireg (s : State) : s.advance.ireg = s.ireg := rfl
@[simp] theorem State.advance_pc (s : State) : s.advance.pc = s.pc + 2#16 := rfl
@[simp] theorem State.advance_stack (s : State) : s.advance.stack = s.stack := rfl
@[simp] theorem State.advance_sp (s : State) : s.advance.sp = s.sp := rfl
@[simp] theorem State.advance_dt (s : State) : s.advance.dt = s.dt := rfl
@[simp] theorem State.advance_st (s : State) : s.advance.st = s.st := rfl
@[simp] theorem State.advance_fb (s : State) : s.advance.fb = s.fb := rfl
@[simp] theorem State.advance_keys (s : State) : s.advance.keys = s.keys := rfl
@[simp] theorem State.advance_mem (s : State) : s.advance.mem = s.mem := rfl
@[simp] theorem State.advance_fault (s : State) : s.advance.fault = s.fault := rfl
@[simp] theorem State.advance_trace (s : State) : s.advance.trace = s.trace := rfl
@[simp] theorem State.advance_redraw (s : State) : s.advance.redraw = s.redraw := rfl
@[simp] theorem State.advance_tone (s : State) : s.advance.tone = s.tone := rfl
@[simp] theorem State.advance_draws (s : State) : s.advance.draws = s.draws := rfl

/-! ## setFb -/

@[simp] theorem State.setFb_regs (s : State) (fb : Vector (BitVec 64) 32) : (s.setFb fb).regs = s.regs := rfl
@[simp] theorem State.setFb_ireg (s : State) (fb : Vector (BitVec 64) 32) : (s.setFb fb).ireg = s.ireg := rfl
@[simp] theorem State.setFb_pc (s : State) (fb : Vector (BitVec 64) 32) : (s.setFb fb).pc = s.pc := rfl
@[simp] theorem State.setFb_stack (s : State) (fb : Vector (BitVec 64) 32) : (s.setFb fb).stack = s.stack := rfl
@[simp] theorem State.setFb_sp (s : State) (fb : Vector (BitVec 64) 32) : (s.setFb fb).sp = s.sp := rfl
@[simp] theorem State.setFb_dt (s : State) (fb : Vector (BitVec 64) 32) : (s.setFb fb).dt = s.dt := rfl
@[simp] theorem State.setFb_st (s : State) (fb : Vector (BitVec 64) 32) : (s.setFb fb).st = s.st := rfl
@[simp] theorem State.setFb_fb (s : State) (fb : Vector (BitVec 64) 32) : (s.setFb fb).fb = fb := rfl
@[simp] theorem State.setFb_keys (s : State) (fb : Vector (BitVec 64) 32) : (s.setFb fb).keys = s.keys := rfl
@[simp] theorem State.setFb_mem (s : State) (fb : Vector (BitVec 64) 32) : (s.setFb fb).mem = s.mem := rfl
@[simp] theorem State.setFb_fault (s : State) (fb : Vector (BitVec 64) 32) : (s.setFb fb).fault = s.fault := rfl
@[simp] theorem State.setFb_trace (s : State) (fb : Vector (BitVec 64) 32) : (s.setFb fb).trace = s.trace := rfl
@[simp] theorem State.setFb_redraw (s : State) (fb : Vector (BitVec 64) 32) : (s.setFb fb).redraw = s.redraw := rfl
@[simp] theorem State.setFb_tone (s : State) (fb : Vector (BitVec 64) 32) : (s.setFb fb).tone = s.tone := rfl
@[simp] theorem State.setFb_draws (s : State) (fb : Vector (BitVec 64) 32) : (s.setFb fb).draws = s.draws := rfl

/-! ## requestRedraw -/

@[simp] theorem State.requestRedraw_regs (s : State) : s.requestRedraw.regs = s.regs := rfl
@[simp] theorem State.requestRedraw_ireg (s : State) : s.requestRedraw.ireg = s.ireg := rfl
@[simp] theorem State.requestRedraw_pc (s : State) : s.requestRedraw.pc = s.pc := rfl
@[simp] theorem State.requestRedraw_stack (s : State) : s.requestRedraw.stack = s.stack := rfl
@[simp] theorem State.requestRedraw_sp (s : State) : s.requestRedraw.sp = s.sp := rfl
@[simp] theorem State.requestRedraw_dt (s : State) : s.requestRedraw.dt = s.dt := rfl
@[simp] theorem State.requestRedraw_st (s : State) : s.requestRedraw.st = s.st := rfl
@[simp] theorem State.requestRedraw_fb (s : State) : s.requestRedraw.fb = s.fb := rfl
@[simp] theorem State.requestRedraw_keys (s : State) : s.requestRedraw.keys = s.keys := rfl
@[simp] theorem State.requestRedraw_mem (s : State) : s.requestRedraw.mem = s.mem := rfl
@[simp] theorem State.requestRedraw_fault (s : State) : s.requestRedraw.fault = s.fault := rfl
@[simp] theorem State.requestRedraw_trace (s : State) : s.requestRedraw.trace = s.trace := rfl
@[simp] theorem State.requestRedraw_redraw (s : State) : s.requestRedraw.redraw = true := rfl
@[simp] theorem State.requestRedraw_tone (s : State) : s.requestRedraw.tone = s.tone := rfl
@[simp] theorem State.requestRedraw_draws (s : State) : s.requestRedraw.draws = s.draws := rfl

/-! ## hostSetKeys -/

@[simp] theorem State.hostSetKeys_regs (s : State) (keys : Vector Bool 16) : (s.hostSetKeys keys).regs = s.regs := rfl
@[simp] theorem State.hostSetKeys_ireg (s : State) (keys : Vector Bool 16) : (s.hostSetKeys keys).ireg = s.ireg := rfl
@[simp] theorem State.hostSetKeys_pc (s : State) (keys : Vector Bool 16) : (s.hostSetKeys keys).pc = s.pc := rfl
@[simp] theorem State.hostSetKeys_stack (s : State) (keys : Vector Bool 16) : (s.hostSetKeys keys).stack = s.stack := rfl
@[simp] theorem State.hostSetKeys_sp (s : State) (keys : Vector Bool 16) : (s.hostSetKeys keys).sp = s.sp := rfl
@[simp] theorem State.hostSetKeys_dt (s : State) (keys : Vector Bool 16) : (s.hostSetKeys keys).dt = s.dt := rfl
@[simp] theorem State.hostSetKeys_st (s : State) (keys : Vector Bool 16) : (s.hostSetKeys keys).st = s.st := rfl
@[simp] theorem State.hostSetKeys_fb (s : State) (keys : Vector Bool 16) : (s.hostSetKeys keys).fb = s.fb := rfl
@[simp] theorem State.hostSetKeys_keys (s : State) (keys : Vector Bool 16) : (s.hostSetKeys keys).keys = keys := rfl
@[simp] theorem State.hostSetKeys_mem (s : State) (keys : Vector Bool 16) : (s.hostSetKeys keys).mem = s.mem := rfl
@[simp] theorem State.hostSetKeys_fault (s : State) (keys : Vector Bool 16) : (s.hostSetKeys keys).fault = s.fault := rfl
@[simp] theorem State.hostSetKeys_trace (s : State) (keys : Vector Bool 16) : (s.hostSetKeys keys).trace = s.trace := rfl
@[simp] theorem State.hostSetKeys_redraw (s : State) (keys : Vector Bool 16) : (s.hostSetKeys keys).redraw = s.redraw := rfl
@[simp] theorem State.hostSetKeys_tone (s : State) (keys : Vector Bool 16) : (s.hostSetKeys keys).tone = s.tone := rfl
@[simp] theorem State.hostSetKeys_draws (s : State) (keys : Vector Bool 16) : (s.hostSetKeys keys).draws = s.draws := rfl

/-! ## nextDraw -/

@[simp] theorem State.nextDraw_regs (s : State) : s.nextDraw.regs = s.regs := rfl
@[simp] theorem State.nextDraw_ireg (s : State) : s.nextDraw.ireg = s.ireg := rfl
@[simp] theorem State.nextDraw_pc (s : State) : s.nextDraw.pc = s.pc := rfl
@[simp] theorem State.nextDraw_stack (s : State) : s.nextDraw.stack = s.stack := rfl
@[simp] theorem State.nextDraw_sp (s : State) : s.nextDraw.sp = s.sp := rfl
@[simp] theorem State.nextDraw_dt (s : State) : s.nextDraw.dt = s.dt := rfl
@[simp] theorem State.nextDraw_st (s : State) : s.nextDraw.st = s.st := rfl
@[simp] theorem State.nextDraw_fb (s : State) : s.nextDraw.fb = s.fb := rfl
@[simp] theorem State.nextDraw_keys (s : State) : s.nextDraw.keys = s.keys := rfl
@[simp] theorem State.nextDraw_mem (s : State) : s.nextDraw.mem = s.mem := rfl
@[simp] theorem State.nextDraw_fault (s : State) : s.nextDraw.fault = s.fault := rfl
@[simp] theorem State.nextDraw_trace (s : State) : s.nextDraw.trace = s.trace := rfl
@[simp] theorem State.nextDraw_redraw (s : State) : s.nextDraw.redraw = s.redraw := rfl
@[simp] theorem State.nextDraw_tone (s : State) : s.nextDraw.tone = s.tone := rfl
@[simp] theorem State.nextDraw_draws (s : State) : s.nextDraw.draws = s.draws + 1 := rfl

/-! ## raise -/

@[simp] theorem State.raise_regs (s : State) (kind : FaultKind) (opcode : Option Word) (info : Option Nat) : (s.raise kind opcode info).regs = s.regs := rfl
@[simp] theorem State.raise_ireg (s : State) (kind : FaultKind) (opcode : Option Word) (info : Option Nat) : (s.raise kind opcode info).ireg = s.ireg := rfl
@[simp] theorem State.raise_pc (s : State) (kind : FaultKind) (opcode : Option Word) (info : Option Nat) : (s.raise kind opcode info).pc = s.pc := rfl
@[simp] theorem State.raise_stack (s : State) (kind : FaultKind) (opcode : Option Word) (info : Option Nat) : (s.raise kind opcode info).stack = s.stack := rfl
@[simp] theorem State.raise_sp (s : State) (kind : FaultKind) (opcode : Option Word) (info : Option Nat) : (s.raise kind opcode info).sp = s.sp := rfl
@[simp] theorem State.raise_dt (s : State) (kind : FaultKind) (opcode : Option Word) (info : Option Nat) : (s.raise kind opcode info).dt = s.dt := rfl
@[simp] theorem State.raise_st (s : State) (kind : FaultKind) (opcode : Option Word) (info : Option Nat) : (s.raise kind opcode info).st = s.st := rfl
@[simp] theorem State.raise_fb (s : State) (kind : FaultKind) (opcode : Option Word) (info : Option Nat) : (s.raise kind opcode info).fb = s.fb := rfl
@[simp] theorem State.raise_keys (s : State) (kind : FaultKind) (opcode : Option Word) (info : Option Nat) : (s.raise kind opcode info).keys = s.keys := rfl
@[simp] theorem State.raise_mem (s : State) (kind : FaultKind) (opcode : Option Word) (info : Option Nat) : (s.raise kind opcode info).mem = s.mem := rfl
@[simp] theorem State.raise_fault (s : State) (kind : FaultKind) (opcode : Option Word) (info : Option Nat) : (s.raise kind opcode info).fault = some { kind := kind, pc := s.pc, opcode := opcode, info := info } := rfl
@[simp] theorem State.raise_trace (s : State) (kind : FaultKind) (opcode : Option Word) (info : Option Nat) : (s.raise kind opcode info).trace = s.trace := rfl
@[simp] theorem State.raise_redraw (s : State) (kind : FaultKind) (opcode : Option Word) (info : Option Nat) : (s.raise kind opcode info).redraw = false := rfl
@[simp] theorem State.raise_tone (s : State) (kind : FaultKind) (opcode : Option Word) (info : Option Nat) : (s.raise kind opcode info).tone = false := rfl
@[simp] theorem State.raise_draws (s : State) (kind : FaultKind) (opcode : Option Word) (info : Option Nat) : (s.raise kind opcode info).draws = s.draws := rfl

/-! ## tick -/

@[simp] theorem State.tick_regs (s : State) : s.tick.regs = s.regs := rfl
@[simp] theorem State.tick_ireg (s : State) : s.tick.ireg = s.ireg := rfl
@[simp] theorem State.tick_pc (s : State) : s.tick.pc = s.pc := rfl
@[simp] theorem State.tick_stack (s : State) : s.tick.stack = s.stack := rfl
@[simp] theorem State.tick_sp (s : State) : s.tick.sp = s.sp := rfl
@[simp] theorem State.tick_dt (s : State) : s.tick.dt = countDown s.dt := rfl
@[simp] theorem State.tick_st (s : State) : s.tick.st = countDown s.st := rfl
@[simp] theorem State.tick_fb (s : State) : s.tick.fb = s.fb := rfl
@[simp] theorem State.tick_keys (s : State) : s.tick.keys = s.keys := rfl
@[simp] theorem State.tick_mem (s : State) : s.tick.mem = s.mem := rfl
@[simp] theorem State.tick_fault (s : State) : s.tick.fault = s.fault := rfl
@[simp] theorem State.tick_trace (s : State) : s.tick.trace = s.trace := rfl
@[simp] theorem State.tick_redraw (s : State) : s.tick.redraw = s.redraw := rfl
@[simp] theorem State.tick_tone (s : State) : s.tick.tone = (decide (0 < s.st.toNat) && decide (countDown s.st = 0#8)) := rfl
@[simp] theorem State.tick_draws (s : State) : s.tick.draws = s.draws := rfl

/-! ## setTrace -/

@[simp] theorem State.setTrace_regs (s : State) (t : Trace) : (s.setTrace t).regs = s.regs := rfl
@[simp] theorem State.setTrace_ireg (s : State) (t : Trace) : (s.setTrace t).ireg = s.ireg := rfl
@[simp] theorem State.setTrace_pc (s : State) (t : Trace) : (s.setTrace t).pc = s.pc := rfl
@[simp] theorem State.setTrace_stack (s : State) (t : Trace) : (s.setTrace t).stack = s.stack := rfl
@[simp] theorem State.setTrace_sp (s : State) (t : Trace) : (s.setTrace t).sp = s.sp := rfl
@[simp] theorem State.setTrace_dt (s : State) (t : Trace) : (s.setTrace t).dt = s.dt := rfl
@[simp] theorem State.setTrace_st (s : State) (t : Trace) : (s.setTrace t).st = s.st := rfl
@[simp] theorem State.setTrace_fb (s : State) (t : Trace) : (s.setTrace t).fb = s.fb := rfl
@[simp] theorem State.setTrace_keys (s : State) (t : Trace) : (s.setTrace t).keys = s.keys := rfl
@[simp] theorem State.setTrace_mem (s : State) (t : Trace) : (s.setTrace t).mem = s.mem := rfl
@[simp] theorem State.setTrace_fault (s : State) (t : Trace) : (s.setTrace t).fault = s.fault := rfl
@[simp] theorem State.setTrace_trace (s : State) (t : Trace) : (s.setTrace t).trace = some t := rfl
@[simp] theorem State.setTrace_redraw (s : State) (t : Trace) : (s.setTrace t).redraw = s.redraw := rfl
@[simp] theorem State.setTrace_tone (s : State) (t : Trace) : (s.setTrace t).tone = s.tone := rfl
@[simp] theorem State.setTrace_draws (s : State) (t : Trace) : (s.setTrace t).draws = s.draws := rfl

/-! ## beginStep -/

@[simp] theorem State.beginStep_regs (s : State) : s.beginStep.regs = s.regs := rfl
@[simp] theorem State.beginStep_ireg (s : State) : s.beginStep.ireg = s.ireg := rfl
@[simp] theorem State.beginStep_pc (s : State) : s.beginStep.pc = s.pc := rfl
@[simp] theorem State.beginStep_stack (s : State) : s.beginStep.stack = s.stack := rfl
@[simp] theorem State.beginStep_sp (s : State) : s.beginStep.sp = s.sp := rfl
@[simp] theorem State.beginStep_dt (s : State) : s.beginStep.dt = s.dt := rfl
@[simp] theorem State.beginStep_st (s : State) : s.beginStep.st = s.st := rfl
@[simp] theorem State.beginStep_fb (s : State) : s.beginStep.fb = s.fb := rfl
@[simp] theorem State.beginStep_keys (s : State) : s.beginStep.keys = s.keys := rfl
@[simp] theorem State.beginStep_mem (s : State) : s.beginStep.mem = s.mem := rfl
@[simp] theorem State.beginStep_fault (s : State) : s.beginStep.fault = s.fault := rfl
@[simp] theorem State.beginStep_trace (s : State) : s.beginStep.trace = s.trace := rfl
@[simp] theorem State.beginStep_redraw (s : State) : s.beginStep.redraw = false := rfl
@[simp] theorem State.beginStep_tone (s : State) : s.beginStep.tone = false := rfl
@[simp] theorem State.beginStep_draws (s : State) : s.beginStep.draws = s.draws := rfl

/-! ## Registers through `v` -/

theorem State.v_eq_of_regs {s t : State} (h : t.regs = s.regs) (x : Nibble) : t.v x = s.v x := by
  simp only [State.v, h]

theorem State.v_setV (s : State) (x y : Nibble) (b : Byte) : (s.setV x b).v y = if y = x then b else s.v y := by
  simp only [State.v, State.setV, Vector.getElem_set, BitVec.toNat_inj, eq_comm]

@[simp] theorem State.v_setV_same (s : State) (x : Nibble) (b : Byte) : (s.setV x b).v x = b := by
  simp [State.v_setV]

theorem State.v_setV_other (s : State) {x y : Nibble} (b : Byte) (h : y ≠ x) : (s.setV x b).v y = s.v y := by
  simp [State.v_setV, h]

@[simp] theorem State.v_setI (s : State) (w : Word) (x : Nibble) : (s.setI w).v x = s.v x := rfl
@[simp] theorem State.v_setDt (s : State) (b : Byte) (x : Nibble) : (s.setDt b).v x = s.v x := rfl
@[simp] theorem State.v_setSt (s : State) (b : Byte) (x : Nibble) : (s.setSt b).v x = s.v x := rfl
@[simp] theorem State.v_setMem (s : State) (m : Memory) (x : Nibble) : (s.setMem m).v x = s.v x := rfl
@[simp] theorem State.v_setPc (s : State) (w : Word) (x : Nibble) : (s.setPc w).v x = s.v x := rfl
@[simp] theorem State.v_advance (s : State) (x : Nibble) : s.advance.v x = s.v x := rfl
@[simp] theorem State.v_setFb (s : State) (fb : Vector (BitVec 64) 32) (x : Nibble) : (s.setFb fb).v x = s.v x := rfl
@[simp] theorem State.v_requestRedraw (s : State) (x : Nibble) : s.requestRedraw.v x = s.v x := rfl
@[simp] theorem State.v_hostSetKeys (s : State) (keys : Vector Bool 16) (x : Nibble) : (s.hostSetKeys keys).v x = s.v x := rfl
@[simp] theorem State.v_nextDraw (s : State) (x : Nibble) : s.nextDraw.v x = s.v x := rfl
@[simp] theorem State.v_raise (s : State) (kind : FaultKind) (opcode : Option Word) (info : Option Nat) (x : Nibble) : (s.raise kind opcode info).v x = s.v x := rfl
@[simp] theorem State.v_tick (s : State) (x : Nibble) : s.tick.v x = s.v x := rfl
@[simp] theorem State.v_setTrace (s : State) (t : Trace) (x : Nibble) : (s.setTrace t).v x = s.v x := rfl
@[simp] theorem State.v_beginStep (s : State) (x : Nibble) : s.beginStep.v x = s.v x := rfl

end Sys2Proof.Machine
end

