-- ==== Sys2Proof/Laws/Ops.lean ====
section
/-! SUPPORT. Everything each shared operation can do, one lemma an operation, for proofs to cite instead of unfolding. -/

namespace Sys2Proof.Machine

/-! ## Program counter and stack -/

theorem State.skipIf_eq (s : State) (c : Bool) :
    s.skipIf c = s.setPc (if c then s.pc + 4#16 else s.pc + 2#16) := by
  cases c
  · rfl
  · simp only [State.skipIf, State.advance, State.setPc, if_true, BitVec.add_assoc]
    rfl

theorem State.push_eq (s : State) (w : Word) (k : Fin 16) (h : s.sp.val = k.val) :
    s.push w = some { s with stack := s.stack.set k.val w k.isLt, sp := ⟨k.val + 1, by omega⟩ } := by
  simp only [State.push, h, k.isLt, dite_true]

theorem State.push_full (s : State) (w : Word) (h : s.sp.val = 16) : s.push w = none := by
  simp [State.push, h]

theorem State.pop_eq (s : State) (k : Fin 16) (h : s.sp.val = k.val + 1) :
    s.pop = some ({ s with sp := ⟨k.val, by omega⟩ }, s.stack[k]) := by
  simp only [State.pop, h, Nat.add_sub_cancel]
  rfl

theorem State.pop_empty (s : State) (h : s.sp.val = 0) : s.pop = none := by
  simp [State.pop, h]

/-- The stack pointer is at 16, or points at one of the 16 entries. -/
theorem State.sp_cases (s : State) : s.sp.val = 16 ∨ ∃ k : Fin 16, s.sp.val = k.val := by
  rcases Nat.lt_or_ge s.sp.val 16 with h | h
  · exact .inr ⟨⟨_, h⟩, rfl⟩
  · exact .inl (by omega)

/-- The stack is empty, or holds an entry below the stack pointer. -/
theorem State.sp_cases_pop (s : State) : s.sp.val = 0 ∨ ∃ k : Fin 16, s.sp.val = k.val + 1 := by
  rcases Nat.eq_zero_or_pos s.sp.val with h | h
  · exact .inl h
  · exact .inr ⟨⟨s.sp.val - 1, by omega⟩, by simp; omega⟩

/-! ## Registers in blocks -/

theorem State.vsUpTo_length (s : State) (x : Nibble) : (s.vsUpTo x).length = x.toNat + 1 := by
  simp [State.vsUpTo]

theorem State.vsUpTo_getElem (s : State) (x : Nibble) (k : Nat) (h : k < (s.vsUpTo x).length) :
    (s.vsUpTo x)[k] = s.v (BitVec.ofNat 4 k) := by
  simp [State.vsUpTo]

/-- Loading a block of registers: those in its range get their bytes, the others stay. -/
theorem State.v_setVs (s : State) (k : Nat) (bytes : List Byte) (h : k + bytes.length ≤ 16) (y : Nibble) :
    (s.setVs k bytes).v y = if h : k ≤ y.toNat ∧ y.toNat - k < bytes.length then bytes[y.toNat - k]'h.2 else s.v y := by
  induction bytes generalizing s k with
  | nil => simp [State.setVs]
  | cons b bs ih =>
    simp only [List.length_cons] at h
    rw [State.setVs, ih (s.setV (BitVec.ofNat 4 k) b) (k + 1) (by omega)]
    have hk : (BitVec.ofNat 4 k).toNat = k := by
      rw [BitVec.toNat_ofNat]; exact Nat.mod_eq_of_lt (by omega)
    by_cases hy : y.toNat = k
    · have hyk : y = BitVec.ofNat 4 k := BitVec.eq_of_toNat_eq (by omega)
      have h1 : ¬ (k + 1 ≤ y.toNat ∧ y.toNat - (k + 1) < bs.length) := by omega
      rw [dif_neg h1, State.v_setV, if_pos hyk, dif_pos ⟨by omega, by simp; omega⟩]
      simp [hy]
    · have hyk : y ≠ BitVec.ofNat 4 k := fun e => hy (by rw [e, hk])
      by_cases hr : k ≤ y.toNat ∧ y.toNat - k < (b :: bs).length
      · have hr' : k + 1 ≤ y.toNat ∧ y.toNat - (k + 1) < bs.length := by
          simp only [List.length_cons] at hr; omega
        rw [dif_pos hr', dif_pos hr]
        have hi : y.toNat - k = (y.toNat - (k + 1)) + 1 := by omega
        simp only [hi, List.getElem_cons_succ]
      · have hr' : ¬ (k + 1 ≤ y.toNat ∧ y.toNat - (k + 1) < bs.length) := by
          simp only [List.length_cons] at hr; omega
        rw [dif_neg hr', dif_neg hr, State.v_setV, if_neg hyk]

/-- Loading a block of registers changes nothing but registers. -/
theorem State.setVs_eq (s : State) (k : Nat) (bytes : List Byte) :
    s.setVs k bytes = { s with regs := (s.setVs k bytes).regs } := by
  induction bytes generalizing s k with
  | nil => rfl
  | cons b bs ih => rw [State.setVs, ih]; rfl

/-! ## Framebuffer -/

theorem cellAt_flipCell (fb : Vector (BitVec 64) 32) {j k : Nat} (hj : j < 2048) (hk : k < 2048) :
    cellAt (flipCell fb j) k = (cellAt fb k ^^ decide (j = k)) := by
  have hjm : j / 64 % 32 = j / 64 := Nat.mod_eq_of_lt (by omega)
  have hkm : k / 64 % 32 = k / 64 := Nat.mod_eq_of_lt (by omega)
  have hk64 : k % 64 < 64 := Nat.mod_lt _ (by decide)
  simp only [cellAt, flipCell, Vector.getElem_set, hjm, hkm]
  by_cases hr : j / 64 = k / 64
  · simp only [hr, if_true, BitVec.getLsbD_xor, BitVec.getLsbD_twoPow]
    congr 1
    by_cases hc : j = k
    · simp [hc, hk64]
    · have : ¬ j % 64 = k % 64 := by omega
      simp [hc, this]
  · have hne : j ≠ k := fun e => hr (by rw [e])
    simp [hr, hne]

/-! ## Keypad -/

theorem State.key_eq (s : State) (b : Byte) (k : Fin 16) (h : b.toNat = k.val) : s.key b = some s.keys[k] := by
  simp only [State.key, h, k.isLt, dite_true]
  rfl

theorem State.key_none (s : State) (b : Byte) (h : 15 < b.toNat) : s.key b = none := by
  have hb : ¬ b.toNat < 16 := by omega
  simp only [State.key, hb, dif_neg, not_false_iff]

theorem State.firstKey_some (s : State) (k : Fin 16) (h : s.keys[k] = true)
    (hmin : ∀ j : Fin 16, j < k → s.keys[j] = false) : s.firstKey = some k.val := by
  rw [State.firstKey, List.findIdx?_eq_some_iff_getElem]
  refine ⟨by simp, by simpa using h, fun j hj => ?_⟩
  simpa using hmin ⟨j, by omega⟩ hj

theorem State.firstKey_none (s : State) (h : ∀ k : Fin 16, s.keys[k] = false) : s.firstKey = none := by
  rw [State.firstKey, List.findIdx?_eq_none_iff]
  intro b hb
  obtain ⟨i, hi, rfl⟩ := List.getElem_of_mem hb
  simpa using h ⟨i, by simpa using hi⟩

/-- A key is pressed, and one of them has the lowest number, or none is. -/
theorem State.firstKey_cases (s : State) :
    (s.firstKey = none ∧ ∀ k : Fin 16, s.keys[k] = false) ∨
    (∃ k : Fin 16, s.firstKey = some k.val ∧ s.keys[k] = true ∧ ∀ j : Fin 16, j < k → s.keys[j] = false) := by
  by_cases h : ∃ k : Fin 16, s.keys[k] = true
  · obtain ⟨k, hk, hmin⟩ := WellFounded.has_min (wellFounded_lt (α := Fin 16)) {k | s.keys[k] = true} h
    have hmin' : ∀ j : Fin 16, j < k → s.keys[j] = false := fun j hj => by
      by_contra hc
      exact hmin j (by simpa using hc) hj
    exact .inr ⟨k, s.firstKey_some k hk hmin', hk, hmin'⟩
  · have h' : ∀ k : Fin 16, s.keys[k] = false := fun k => by
      by_contra hc
      exact h ⟨k, by simpa using hc⟩
    exact .inl ⟨s.firstKey_none h', h'⟩

/-! ## The step -/

theorem opcodeOfBytes_toNat (hi lo : Byte) : (opcodeOfBytes hi lo).toNat = hi.toNat * 256 + lo.toNat := by
  rw [opcodeOfBytes, BitVec.toNat_append, Nat.shiftLeft_eq, Nat.mul_comm, ← Nat.two_pow_add_eq_or_of_lt lo.isLt]

theorem countDown_toNat (b : Byte) : (countDown b).toNat = b.toNat - 1 := by
  unfold countDown
  split
  · rw [BitVec.toNat_sub]
    simp only [BitVec.toNat_ofNat]
    omega
  · omega

theorem State.fetch_eq (s : State) (h : s.pc.toNat ≤ 0xFFE) :
    s.fetch = some (opcodeOfBytes (s.mem.read s.pc.toNat) (s.mem.read (s.pc.toNat + 1))) := by
  have : ¬ 0xFFE < s.pc.toNat := by omega
  simp [State.fetch, this]

theorem State.fetch_none (s : State) (h : 0xFFE < s.pc.toNat) : s.fetch = none := by
  simp [State.fetch, h]

@[simp] theorem State.fetch_beginStep (s : State) : s.beginStep.fetch = s.fetch := rfl

theorem finishStep_of_fault (op : Word) (i : Instr) (s t : State) {r : FaultRecord} (h : t.fault = some r) :
    finishStep op i s t = t := by
  simp [finishStep, h]

theorem finishStep_of_running (op : Word) (i : Instr) (s t : State) (h : t.fault = none) :
    finishStep op i s t =
      t.tick.setTrace { opcode := op, instr := i, before := s.snapshot, executed := t.snapshot } := by
  simp [finishStep, h]

/-- Everything a step can do when it answers a next state: fault in the fetch, fault in decoding, or run an
instruction. -/
theorem step_cases {s u : State} (h : step s = .next u) :
    s.fault = none ∧
    ((s.fetch = none ∧ u = s.beginStep.raiseFetch) ∨
     (∃ op e, s.fetch = some op ∧ decode op = .error e ∧ u = s.beginStep.raiseDecode op) ∨
     (∃ op i t, s.fetch = some op ∧ decode op = .ok i ∧ exec i s.beginStep = .next t ∧
       u = finishStep op i s.beginStep t)) := by
  unfold step at h
  rw [State.fetch_beginStep] at h
  cases hf : s.fault with
  | some r => simp [hf] at h
  | none =>
    refine ⟨rfl, ?_⟩
    simp only [hf] at h
    cases ho : s.fetch with
    | none => simp only [ho] at h; cases h; exact .inl ⟨rfl, rfl⟩
    | some op =>
      simp only [ho] at h
      cases hd : decode op with
      | error e => simp only [hd] at h; cases h; exact .inr (.inl ⟨op, e, rfl, hd, rfl⟩)
      | ok i =>
        simp only [hd] at h
        cases he : exec i s.beginStep with
        | next t => simp only [he] at h; cases h; exact .inr (.inr ⟨op, i, t, rfl, hd, he, rfl⟩)
        | fault f => simp [he] at h
        | refused r => simp [he] at h

/-- The step of a core with a fault record. -/
theorem step_halted {s : State} {r : FaultRecord} (h : s.fault = some r) : step s = .fault (.halted r) := by
  simp [step, h]

/-- The step of a core whose fetch faults. -/
theorem step_of_fetch_none {s : State} (hf : s.fault = none) (h : s.fetch = none) :
    step s = .next s.beginStep.raiseFetch := by
  unfold step; rw [State.fetch_beginStep]; simp only [hf, h]

/-- The step of a core whose opcode is unrecognized. -/
theorem step_of_decode_error {s : State} {op : Word} {e : DecodeError} (hf : s.fault = none) (h : s.fetch = some op)
    (hd : decode op = .error e) : step s = .next (s.beginStep.raiseDecode op) := by
  unfold step; rw [State.fetch_beginStep]; simp only [hf, h, hd]

/-- The step of a core whose opcode is an instruction. -/
theorem step_of_decode_ok {s t : State} {op : Word} {i : Instr} (hf : s.fault = none) (h : s.fetch = some op)
    (hd : decode op = .ok i) (he : exec i s.beginStep = .next t) :
    step s = .next (finishStep op i s.beginStep t) := by
  unfold step; rw [State.fetch_beginStep]; simp only [hf, h, hd, he]

end Sys2Proof.Machine
end

