-- ==== Sys2Proof/Laws/PerInstr.lean ====
section
/-! SUPPORT. The family OpcodeMatch, about an instruction as syntax: its operands are in range, and its opcode matches
a row of the opcode map that builds exactly it (30_encoding.md R54, R57). One lemma per constructor of Instr. -/

namespace Sys2Proof.Laws

/-- Every row's fixed digits stand in the opcode, and its fields carry the operands. -/
def OpcodeMatch.Statement (i : Instr) : Prop :=
  i.wellFormed = true ∧ ∃ r, r ∈ opcodeMap ∧ r.matchesOpcode (encode i) = true ∧ r.build (encode i) = i

/-! ## The four shapes of a row -/

theorem nibbleInRange_toNat (x : Nibble) : nibbleInRange x.toNat = true := by
  simpa [nibbleInRange] using x.isLt

theorem byteInRange_toNat (b : Byte) : byteInRange b.toNat = true := by
  simpa [byteInRange] using b.isLt

theorem addrInRange_toNat (a : Addr12) : addrInRange a.toNat = true := by
  simpa [addrInRange] using a.isLt

theorem nibble_and_ones (f : Nibble) : f &&& 0xF#4 = f := BitVec.and_allOnes

theorem rowNNN_matches (f : Nibble) (nnn : Addr12) (p : Word) (g : Addr12 → Instr) (h : p = (f ++ 0#12 : Word)) :
    (rowNNN p g).matchesOpcode (f ++ nnn : Word) = true ∧ (rowNNN p g).build (f ++ nnn : Word) = g nnn := by
  refine ⟨?_, by simp only [rowNNN, fieldNNN_addr]⟩
  have hm : (0xF000#16) = (0xF#4 ++ 0#12 : Word) := rfl
  simp only [OpcodeRow.matchesOpcode, rowNNN, beq_iff_eq, h]
  rw [hm, BitVec.and_append, nibble_and_ones, BitVec.and_zero]

theorem rowXNN_matches (f x : Nibble) (nn : Byte) (p : Word) (g : Nibble → Byte → Instr)
    (h : p = (f ++ 0#4 ++ 0#8 : Word)) :
    (rowXNN p g).matchesOpcode (f ++ x ++ nn : Word) = true ∧ (rowXNN p g).build (f ++ x ++ nn : Word) = g x nn := by
  refine ⟨?_, by simp only [rowXNN, fieldX_byte, fieldNN_byte]⟩
  have hm : (0xF000#16) = (0xF#4 ++ 0#4 ++ 0#8 : Word) := rfl
  simp only [OpcodeRow.matchesOpcode, rowXNN, beq_iff_eq, h]
  rw [hm, BitVec.and_append, BitVec.and_append, nibble_and_ones, BitVec.and_zero, BitVec.and_zero]

theorem rowXY_matches (f x y n : Nibble) (p : Word) (g : Nibble → Nibble → Instr)
    (h : p = (f ++ 0#4 ++ 0#4 ++ n : Word)) :
    (rowXY p g).matchesOpcode (f ++ x ++ y ++ n : Word) = true ∧
      (rowXY p g).build (f ++ x ++ y ++ n : Word) = g x y := by
  refine ⟨?_, by simp only [rowXY, fieldX_nibbles, fieldY_nibbles]⟩
  have hm : (0xF00F#16) = (0xF#4 ++ 0#4 ++ 0#4 ++ 0xF#4 : Word) := rfl
  simp only [OpcodeRow.matchesOpcode, rowXY, beq_iff_eq, h]
  rw [hm, BitVec.and_append, BitVec.and_append, BitVec.and_append, nibble_and_ones, nibble_and_ones, BitVec.and_zero,
    BitVec.and_zero]

theorem rowX_matches (f x : Nibble) (nn : Byte) (p : Word) (g : Nibble → Instr) (h : p = (f ++ 0#4 ++ nn : Word)) :
    (rowX p g).matchesOpcode (f ++ x ++ nn : Word) = true ∧ (rowX p g).build (f ++ x ++ nn : Word) = g x := by
  refine ⟨?_, by simp only [rowX, fieldX_byte]⟩
  have hm : (0xF0FF#16) = (0xF#4 ++ 0#4 ++ 0xFF#8 : Word) := rfl
  have hb : nn &&& 0xFF#8 = nn := BitVec.and_allOnes
  simp only [OpcodeRow.matchesOpcode, rowX, beq_iff_eq, h]
  rw [hm, BitVec.and_append, BitVec.and_append, nibble_and_ones, BitVec.and_zero, hb]

/-! ## One lemma per constructor -/

theorem OpcodeMatch.cls : OpcodeMatch.Statement .cls :=
  ⟨rfl, ⟨0xFFFF#16, 0x00E0#16, fun _ => .cls⟩, by simp [opcodeMap], by decide, rfl⟩

theorem OpcodeMatch.ret : OpcodeMatch.Statement .ret :=
  ⟨rfl, ⟨0xFFFF#16, 0x00EE#16, fun _ => .ret⟩, by simp [opcodeMap], by decide, rfl⟩

theorem OpcodeMatch.jp (nnn : Addr12) : OpcodeMatch.Statement (.jp nnn) :=
  ⟨addrInRange_toNat nnn, rowNNN 0x1000#16 .jp, by simp [opcodeMap], rowNNN_matches 0x1#4 nnn _ _ rfl⟩

theorem OpcodeMatch.call (nnn : Addr12) : OpcodeMatch.Statement (.call nnn) :=
  ⟨addrInRange_toNat nnn, rowNNN 0x2000#16 .call, by simp [opcodeMap], rowNNN_matches 0x2#4 nnn _ _ rfl⟩

theorem OpcodeMatch.seImm (x : Nibble) (nn : Byte) : OpcodeMatch.Statement (.seImm x nn) :=
  ⟨by simp [Instr.wellFormed, nibbleInRange_toNat, byteInRange_toNat], rowXNN 0x3000#16 .seImm, by simp [opcodeMap],
    rowXNN_matches 0x3#4 x nn _ _ rfl⟩

theorem OpcodeMatch.sneImm (x : Nibble) (nn : Byte) : OpcodeMatch.Statement (.sneImm x nn) :=
  ⟨by simp [Instr.wellFormed, nibbleInRange_toNat, byteInRange_toNat], rowXNN 0x4000#16 .sneImm, by simp [opcodeMap],
    rowXNN_matches 0x4#4 x nn _ _ rfl⟩

theorem OpcodeMatch.seReg (x y : Nibble) : OpcodeMatch.Statement (.seReg x y) :=
  ⟨by simp [Instr.wellFormed, nibbleInRange_toNat], rowXY 0x5000#16 .seReg, by simp [opcodeMap],
    rowXY_matches 0x5#4 x y 0x0#4 _ _ rfl⟩

theorem OpcodeMatch.ldImm (x : Nibble) (nn : Byte) : OpcodeMatch.Statement (.ldImm x nn) :=
  ⟨by simp [Instr.wellFormed, nibbleInRange_toNat, byteInRange_toNat], rowXNN 0x6000#16 .ldImm, by simp [opcodeMap],
    rowXNN_matches 0x6#4 x nn _ _ rfl⟩

theorem OpcodeMatch.addImm (x : Nibble) (nn : Byte) : OpcodeMatch.Statement (.addImm x nn) :=
  ⟨by simp [Instr.wellFormed, nibbleInRange_toNat, byteInRange_toNat], rowXNN 0x7000#16 .addImm, by simp [opcodeMap],
    rowXNN_matches 0x7#4 x nn _ _ rfl⟩

theorem OpcodeMatch.ldReg (x y : Nibble) : OpcodeMatch.Statement (.ldReg x y) :=
  ⟨by simp [Instr.wellFormed, nibbleInRange_toNat], rowXY 0x8000#16 .ldReg, by simp [opcodeMap],
    rowXY_matches 0x8#4 x y 0x0#4 _ _ rfl⟩

theorem OpcodeMatch.orReg (x y : Nibble) : OpcodeMatch.Statement (.orReg x y) :=
  ⟨by simp [Instr.wellFormed, nibbleInRange_toNat], rowXY 0x8001#16 .orReg, by simp [opcodeMap],
    rowXY_matches 0x8#4 x y 0x1#4 _ _ rfl⟩

theorem OpcodeMatch.andReg (x y : Nibble) : OpcodeMatch.Statement (.andReg x y) :=
  ⟨by simp [Instr.wellFormed, nibbleInRange_toNat], rowXY 0x8002#16 .andReg, by simp [opcodeMap],
    rowXY_matches 0x8#4 x y 0x2#4 _ _ rfl⟩

theorem OpcodeMatch.xorReg (x y : Nibble) : OpcodeMatch.Statement (.xorReg x y) :=
  ⟨by simp [Instr.wellFormed, nibbleInRange_toNat], rowXY 0x8003#16 .xorReg, by simp [opcodeMap],
    rowXY_matches 0x8#4 x y 0x3#4 _ _ rfl⟩

theorem OpcodeMatch.addReg (x y : Nibble) : OpcodeMatch.Statement (.addReg x y) :=
  ⟨by simp [Instr.wellFormed, nibbleInRange_toNat], rowXY 0x8004#16 .addReg, by simp [opcodeMap],
    rowXY_matches 0x8#4 x y 0x4#4 _ _ rfl⟩

theorem OpcodeMatch.subReg (x y : Nibble) : OpcodeMatch.Statement (.subReg x y) :=
  ⟨by simp [Instr.wellFormed, nibbleInRange_toNat], rowXY 0x8005#16 .subReg, by simp [opcodeMap],
    rowXY_matches 0x8#4 x y 0x5#4 _ _ rfl⟩

theorem OpcodeMatch.shr (x y : Nibble) : OpcodeMatch.Statement (.shr x y) :=
  ⟨by simp [Instr.wellFormed, nibbleInRange_toNat], rowXY 0x8006#16 .shr, by simp [opcodeMap],
    rowXY_matches 0x8#4 x y 0x6#4 _ _ rfl⟩

theorem OpcodeMatch.subnReg (x y : Nibble) : OpcodeMatch.Statement (.subnReg x y) :=
  ⟨by simp [Instr.wellFormed, nibbleInRange_toNat], rowXY 0x8007#16 .subnReg, by simp [opcodeMap],
    rowXY_matches 0x8#4 x y 0x7#4 _ _ rfl⟩

theorem OpcodeMatch.shl (x y : Nibble) : OpcodeMatch.Statement (.shl x y) :=
  ⟨by simp [Instr.wellFormed, nibbleInRange_toNat], rowXY 0x800E#16 .shl, by simp [opcodeMap],
    rowXY_matches 0x8#4 x y 0xE#4 _ _ rfl⟩

theorem OpcodeMatch.sneReg (x y : Nibble) : OpcodeMatch.Statement (.sneReg x y) :=
  ⟨by simp [Instr.wellFormed, nibbleInRange_toNat], rowXY 0x9000#16 .sneReg, by simp [opcodeMap],
    rowXY_matches 0x9#4 x y 0x0#4 _ _ rfl⟩

theorem OpcodeMatch.ldI (nnn : Addr12) : OpcodeMatch.Statement (.ldI nnn) :=
  ⟨addrInRange_toNat nnn, rowNNN 0xA000#16 .ldI, by simp [opcodeMap], rowNNN_matches 0xA#4 nnn _ _ rfl⟩

theorem OpcodeMatch.jpV0 (nnn : Addr12) : OpcodeMatch.Statement (.jpV0 nnn) :=
  ⟨addrInRange_toNat nnn, rowNNN 0xB000#16 .jpV0, by simp [opcodeMap], rowNNN_matches 0xB#4 nnn _ _ rfl⟩

theorem OpcodeMatch.rnd (x : Nibble) (nn : Byte) : OpcodeMatch.Statement (.rnd x nn) :=
  ⟨by simp [Instr.wellFormed, nibbleInRange_toNat, byteInRange_toNat], rowXNN 0xC000#16 .rnd, by simp [opcodeMap],
    rowXNN_matches 0xC#4 x nn _ _ rfl⟩

theorem OpcodeMatch.drw (x y n : Nibble) : OpcodeMatch.Statement (.drw x y n) := by
  refine ⟨by simp [Instr.wellFormed, nibbleInRange_toNat],
    ⟨0xF000#16, 0xD000#16, fun op => .drw (fieldX op) (fieldY op) (fieldN op)⟩, by simp [opcodeMap], ?_, ?_⟩
  · have hm : (0xF000#16) = (0xF#4 ++ 0#4 ++ 0#4 ++ 0#4 : Word) := rfl
    simp only [OpcodeRow.matchesOpcode, beq_iff_eq, encode]
    rw [hm, BitVec.and_append, BitVec.and_append, BitVec.and_append, nibble_and_ones, BitVec.and_zero, BitVec.and_zero,
      BitVec.and_zero]
    rfl
  · simp [encode]

theorem OpcodeMatch.skp (x : Nibble) : OpcodeMatch.Statement (.skp x) :=
  ⟨nibbleInRange_toNat x, rowX 0xE09E#16 .skp, by simp [opcodeMap], rowX_matches 0xE#4 x 0x9E#8 _ _ rfl⟩

theorem OpcodeMatch.sknp (x : Nibble) : OpcodeMatch.Statement (.sknp x) :=
  ⟨nibbleInRange_toNat x, rowX 0xE0A1#16 .sknp, by simp [opcodeMap], rowX_matches 0xE#4 x 0xA1#8 _ _ rfl⟩

theorem OpcodeMatch.ldVxDt (x : Nibble) : OpcodeMatch.Statement (.ldVxDt x) :=
  ⟨nibbleInRange_toNat x, rowX 0xF007#16 .ldVxDt, by simp [opcodeMap], rowX_matches 0xF#4 x 0x07#8 _ _ rfl⟩

theorem OpcodeMatch.ldVxK (x : Nibble) : OpcodeMatch.Statement (.ldVxK x) :=
  ⟨nibbleInRange_toNat x, rowX 0xF00A#16 .ldVxK, by simp [opcodeMap], rowX_matches 0xF#4 x 0x0A#8 _ _ rfl⟩

theorem OpcodeMatch.ldDtVx (x : Nibble) : OpcodeMatch.Statement (.ldDtVx x) :=
  ⟨nibbleInRange_toNat x, rowX 0xF015#16 .ldDtVx, by simp [opcodeMap], rowX_matches 0xF#4 x 0x15#8 _ _ rfl⟩

theorem OpcodeMatch.ldStVx (x : Nibble) : OpcodeMatch.Statement (.ldStVx x) :=
  ⟨nibbleInRange_toNat x, rowX 0xF018#16 .ldStVx, by simp [opcodeMap], rowX_matches 0xF#4 x 0x18#8 _ _ rfl⟩

theorem OpcodeMatch.addI (x : Nibble) : OpcodeMatch.Statement (.addI x) :=
  ⟨nibbleInRange_toNat x, rowX 0xF01E#16 .addI, by simp [opcodeMap], rowX_matches 0xF#4 x 0x1E#8 _ _ rfl⟩

theorem OpcodeMatch.ldF (x : Nibble) : OpcodeMatch.Statement (.ldF x) :=
  ⟨nibbleInRange_toNat x, rowX 0xF029#16 .ldF, by simp [opcodeMap], rowX_matches 0xF#4 x 0x29#8 _ _ rfl⟩

theorem OpcodeMatch.ldB (x : Nibble) : OpcodeMatch.Statement (.ldB x) :=
  ⟨nibbleInRange_toNat x, rowX 0xF033#16 .ldB, by simp [opcodeMap], rowX_matches 0xF#4 x 0x33#8 _ _ rfl⟩

theorem OpcodeMatch.ldMemVx (x : Nibble) : OpcodeMatch.Statement (.ldMemVx x) :=
  ⟨nibbleInRange_toNat x, rowX 0xF055#16 .ldMemVx, by simp [opcodeMap], rowX_matches 0xF#4 x 0x55#8 _ _ rfl⟩

theorem OpcodeMatch.ldVxMem (x : Nibble) : OpcodeMatch.Statement (.ldVxMem x) :=
  ⟨nibbleInRange_toNat x, rowX 0xF065#16 .ldVxMem, by simp [opcodeMap], rowX_matches 0xF#4 x 0x65#8 _ _ rfl⟩

end Sys2Proof.Laws
end

