-- ==== Sys2Proof/Tests/Slice0.lean ====
section
/-! SUPPORT. Tests: the operand checks, decoding word by word, the vectors of 95_test_vectors.md, and a witness for the
hypotheses of each statement that has any. Expected values are the spec's, or worked by hand from its rules. -/

namespace Sys2Proof.Tests

open Sys2Proof Sys2Proof.Machine

/-! ## Helpers -/

/-- A state with some registers set. -/
def withV (l : List (Nibble × Byte)) (s : State) : State := l.foldl (fun s p => s.setV p.1 p.2) s

/-- A state with some bytes of memory written. -/
def withMem (l : List (Nat × Byte)) (s : State) : State := l.foldl (fun s p => s.setMem (s.mem.write p.1 p.2)) s

/-- A state with some cells on. -/
def withCells (l : List Nat) (s : State) : State := s.setFb (l.foldl flipCell s.fb)

/-- A state with some keys pressed. -/
def withKeys (l : List (Fin 16)) (s : State) : State := s.hostSetKeys (l.foldl (fun k i => k.set i.val true i.isLt) s.keys)

/-- A state with `n` entries in use on the stack. -/
def withSp (n : Fin 17) (s : State) : State := { s with sp := n }

/-- The state one step after the opcode is put at PC. -/
def stepOf (s : State) (w : Nat) : Option State :=
  match step (s.withFetchWord 16 w) with
  | .next t => some t
  | _ => none

/-- The instruction an opcode decodes to. -/
def decoded (w : Word) : Option Instr :=
  match decode w with
  | .ok i => some i
  | .error _ => none

/-- The opcode is refused as unrecognized, by its own number. -/
def unrecognized (w : Word) : Bool :=
  match decode w with
  | .error (.unrecognizedOpcode op) => op == w
  | _ => false

/-- The fault record one step after the opcode is put at PC: kind, code, pc, opcode, info. -/
def faultOf (s : State) (w : Nat) : Option (FaultKind × Nat × Word × Option Word × Option Nat) :=
  (stepOf s w).bind (fun t => t.fault.map (fun r => (r.kind, r.kind.code, r.pc, r.opcode, r.info)))

/-! ## WellFormed: an ill-formed operand for each check (30_encoding.md R54) -/

theorem test_nibble_check_refuses_16 : nibbleInRange 16 = false ∧ nibbleInRange 15 = true := by decide
theorem test_byte_check_refuses_256 : byteInRange 256 = false ∧ byteInRange 255 = true := by decide
theorem test_addr_check_refuses_4096 : addrInRange 4096 = false ∧ addrInRange 4095 = true := by decide

/-! ## Decoding: each constructor's word, written out bit by bit from the encodings of R57 -/

theorem test_decode_display :
    decoded 0b0000000011100000#16 = some .cls ∧ decoded 0b1101000000010101#16 = some (.drw 0 1 5) := by decide
theorem test_decode_control :
    decoded 0b0000000011101110#16 = some .ret ∧ decoded 0b0001001000000101#16 = some (.jp 0x205) ∧
    decoded 0b0010101010111100#16 = some (.call 0xABC) ∧ decoded 0b1011001100000000#16 = some (.jpV0 0x300) := by decide
theorem test_decode_skip :
    decoded 0b0011001101000010#16 = some (.seImm 3 0x42) ∧ decoded 0b0100001101000010#16 = some (.sneImm 3 0x42) ∧
    decoded 0b0101000100100000#16 = some (.seReg 1 2) ∧ decoded 0b1001000100100000#16 = some (.sneReg 1 2) ∧
    decoded 0b1110010110011110#16 = some (.skp 5) ∧ decoded 0b1110010110100001#16 = some (.sknp 5) := by decide
theorem test_decode_immediate :
    decoded 0b0110000000000101#16 = some (.ldImm 0 5) ∧ decoded 0b0111001000000011#16 = some (.addImm 2 3) ∧
    decoded 0b1100001100001111#16 = some (.rnd 3 0x0F) := by decide
theorem test_decode_alu :
    decoded 0b1000001000110000#16 = some (.ldReg 2 3) ∧ decoded 0b1000001000110001#16 = some (.orReg 2 3) ∧
    decoded 0b1000001000110010#16 = some (.andReg 2 3) ∧ decoded 0b1000001000110011#16 = some (.xorReg 2 3) ∧
    decoded 0b1000001000110100#16 = some (.addReg 2 3) ∧ decoded 0b1000001000110101#16 = some (.subReg 2 3) ∧
    decoded 0b1000001000110110#16 = some (.shr 2 3) ∧ decoded 0b1000001000110111#16 = some (.subnReg 2 3) ∧
    decoded 0b1000001000111110#16 = some (.shl 2 3) := by decide
theorem test_decode_index_memory :
    decoded 0b1010010100000000#16 = some (.ldI 0x500) ∧ decoded 0b1111010000011110#16 = some (.addI 4) ∧
    decoded 0b1111000000101001#16 = some (.ldF 0) ∧ decoded 0b1111101000110011#16 = some (.ldB 10) ∧
    decoded 0b1111000101010101#16 = some (.ldMemVx 1) ∧ decoded 0b1111001001100101#16 = some (.ldVxMem 2) := by decide
theorem test_decode_timers_keys :
    decoded 0b1111001100000111#16 = some (.ldVxDt 3) ∧ decoded 0b1111001000001010#16 = some (.ldVxK 2) ∧
    decoded 0b1111000000010101#16 = some (.ldDtVx 0) ∧ decoded 0b1111000000011000#16 = some (.ldStVx 0) := by decide

/-- 95_test_vectors.md 5XY0-2, 9XY0-2, 8XYF-1, DEC-1 to DEC-4, E10. -/
theorem test_decode_refuses :
    [0x5121#16, 0x9128, 0x801F, 0x0000, 0x0123, 0xE0A0, 0xF0FF, 0xFFFF].all
      unrecognized = true := by decide
theorem test_decode_bytes :
    decodeBytes [0x60, 0x05, 0xAA] = .ok (.ldImm 0 5, [0xAA]) ∧ decodeBytes [0x60] = .error .tooFewBytes := ⟨rfl, rfl⟩
theorem test_decode_table_word :
    decodeTableWord 16 0x6005 = some (.ldImm 0 5) ∧ decodeTableWord 16 0x5121 = none := by decide

/-! ## Display -/

/-- 00E0-1. -/
theorem test_cls : (stepOf (withV [(15, 7)] (withCells [0, 100, 2047] State.reset)) 0x00E0).map
    (fun t => ([0, 100, 2047].map t.cell, t.v 15, t.pc, t.redraw)) = some ([false, false, false], 7, 0x202, false) := by
  decide

/-- DXYN-3: the second row wraps to the top, and P3's column 63. -/
theorem test_drw_wraps :
    (stepOf (withV [(0, 63), (1, 31)] (withMem [(0x300, 0xC0), (0x301, 0x80)] (State.reset.setI 0x300))) 0xD012).map
      (fun t => ([2047, 0, 63, 64].map t.cell, t.v 15, t.redraw, t.pc)) =
    some ([true, true, true, false], 0, true, 0x202) := by decide

/-- DXYN-5 (collision) with X = 15 as in DXYN-8: the column is VF's old value. -/
theorem test_drw_collides :
    (stepOf (withCells [6] (withV [(15, 5)] (withMem [(0x300, 0xC0)] (State.reset.setI 0x300)))) 0xDF01).map
      (fun t => (t.cell 5, t.cell 6, t.v 15)) = some (true, false, 1) := by decide

/-- DXYN-6. -/
theorem test_drw_faults :
    faultOf (withMem [(0xFFF, 0xFF)] (State.reset.setI 0xFFF)) 0xD002 =
      some (.memoryOutOfRange, 3, 0x200, some 0xD002, some 0x1000) := by decide

/-- FX29-3: under the default font the glyph A is at 0x032. -/
theorem test_default_glyph (h : Config.UsesDefaultGlyphs) :
    [0x032, 0x033, 0x034, 0x035, 0x036].map State.reset.mem.read = [0xF0, 0x90, 0xF0, 0x90, 0x90] := by
  have e : ∀ a, a < 80 → State.reset.mem.read a = Config.defaultGlyphs.getD a 0 := fun a ha => by
    show Memory.background a = _
    rw [Memory.background, if_pos ha, h a ha]
  rw [List.map, e _ (by decide), List.map, e _ (by decide), List.map, e _ (by decide), List.map, e _ (by decide),
    List.map, e _ (by decide)]
  rfl

/-! ## Control -/

/-- 00EE-1. -/
theorem test_ret :
    (stepOf { State.reset with sp := 2, stack := State.reset.stack.set 1 0x300 } 0x00EE).map
      (fun t => (t.sp.val, t.pc, t.stack[1])) = some (1, 0x302, 0x300) := by decide
/-- 00EE-2. -/
theorem test_ret_underflow : faultOf State.reset 0x00EE = some (.stackUnderflow, 5, 0x200, some 0x00EE, none) := by
  decide
/-- E9. -/
theorem test_jp_odd : (stepOf State.reset 0x1205).map (fun t => t.pc) = some 0x205 := by decide
/-- 2NNN-1. -/
theorem test_call_sixteenth :
    (stepOf ((withSp 15 State.reset).setPc 0x400) 0x2ABC).map (fun t => (t.stack[15], t.sp.val, t.pc)) =
    some (0x400, 16, 0xABC) := by decide
/-- 2NNN-2. -/
theorem test_call_overflow : faultOf ((withSp 16 State.reset).setPc 0x400) 0x2ABC =
    some (.stackOverflow, 4, 0x400, some 0x2ABC, none) := by decide
/-- BNNN-1 and BNNN-3. -/
theorem test_jpV0 :
    (stepOf (withV [(0, 0xFF)] State.reset) 0xBFFF).map (fun t => t.pc) = some 0x1100 ∧
    (stepOf (withV [(0, 4)] State.reset) 0xB300).map (fun t => t.pc) = some 0x306 := by decide

/-! ## Skips -/

/-- 3XNN-1 and 3XNN-2. -/
theorem test_seImm :
    (stepOf (withV [(15, 1)] State.reset) 0x3F01).map (fun t => t.pc) = some 0x204 ∧
    (stepOf (withV [(3, 0x41)] State.reset) 0x3342).map (fun t => t.pc) = some 0x202 := by decide
/-- 4XNN-1 and 4XNN-2. -/
theorem test_sneImm :
    (stepOf (withV [(3, 0x42)] State.reset) 0x4342).map (fun t => t.pc) = some 0x202 ∧
    (stepOf (withV [(3, 0x41)] State.reset) 0x4342).map (fun t => t.pc) = some 0x204 := by decide
/-- 5XY0-1, 9XY0-1 and R77's example. -/
theorem test_skip_registers :
    (stepOf State.reset 0x5550).map (fun t => t.pc) = some 0x204 ∧
    (stepOf State.reset 0x9550).map (fun t => t.pc) = some 0x202 ∧
    (stepOf (withV [(1, 7), (2, 8)] State.reset) 0x9120).map (fun t => t.pc) = some 0x204 := by decide
/-- EX9E-1 and EXA1-1. -/
theorem test_skip_keys :
    (stepOf (withKeys [10] (withV [(5, 10)] State.reset)) 0xE59E).map (fun t => t.pc) = some 0x204 ∧
    (stepOf (withKeys [10] (withV [(5, 10)] State.reset)) 0xE5A1).map (fun t => t.pc) = some 0x202 := by decide
/-- EX9E-2 and EXA1-2. -/
theorem test_skip_keys_fault :
    faultOf (withV [(5, 0x10)] State.reset) 0xE59E = some (.keyIndexOutOfRange, 6, 0x200, some 0xE59E, some 0x10) ∧
    faultOf (withV [(5, 0xFF)] State.reset) 0xE5A1 = some (.keyIndexOutOfRange, 6, 0x200, some 0xE5A1, some 0xFF) :=
  ⟨by decide, by decide⟩
/-- SKIP-1: a skip past the end of memory faults only at the next fetch. -/
theorem test_skip_at_end :
    (stepOf (State.reset.setPc 0xFFC) 0x3000).map (fun t => (t.pc, t.fault)) = some (0x1000, none) := by decide

/-! ## Registers -/

/-- 6XNN-1. -/
theorem test_ldImm : (stepOf State.reset 0x6FAB).map (fun t => (t.v 15, t.pc)) = some (0xAB, 0x202) := by decide
/-- 7XNN-1 and 7XNN-2. -/
theorem test_addImm :
    (stepOf (withV [(2, 0xFE)] State.reset) 0x7203).map (fun t => (t.v 2, t.v 15)) = some (1, 0) ∧
    (stepOf (withV [(15, 2)] State.reset) 0x7FFF).map (fun t => t.v 15) = some 1 := by decide
/-- 8XY0-1, 8XY1-1. -/
theorem test_ld_or :
    (stepOf (withV [(1, 0x33)] State.reset) 0x8010).map (fun t => t.v 0) = some 0x33 ∧
    (stepOf (withV [(0, 0x0F), (1, 0xF0), (15, 0x77)] State.reset) 0x8011).map (fun t => (t.v 0, t.v 15)) =
      some (0xFF, 0x77) := by decide
/-- 8XY2-1 and R87's example. -/
theorem test_and_xor :
    (stepOf (withV [(0, 0x3C), (1, 0x0F)] State.reset) 0x8012).map (fun t => t.v 0) = some 0x0C ∧
    (stepOf (withV [(0, 0x3C), (1, 0x0F)] State.reset) 0x8013).map (fun t => t.v 0) = some 0x33 := by decide
/-- E1. -/
theorem test_addReg :
    (stepOf (withV [(0, 0xFF), (1, 2)] State.reset) 0x8014).map (fun t => (t.v 0, t.v 15)) = some (1, 1) ∧
    (stepOf (withV [(15, 0xFF), (1, 1)] State.reset) 0x8F14).map (fun t => t.v 15) = some 1 := by decide
/-- 8XY4-3: VF as an operand. -/
theorem test_addReg_vf : (stepOf (withV [(0, 0x10), (15, 0xF5)] State.reset) 0x80F4).map (fun t => (t.v 0, t.v 15)) =
    some (5, 1) := by decide
/-- E2. -/
theorem test_subReg :
    (stepOf (withV [(0, 5), (1, 7)] State.reset) 0x8015).map (fun t => (t.v 0, t.v 15)) = some (0xFE, 0) ∧
    (stepOf (withV [(0, 7), (1, 7)] State.reset) 0x8015).map (fun t => (t.v 0, t.v 15)) = some (0, 1) := by decide
/-- 8XY6-1 and 8XY6-2. -/
theorem test_shr :
    (stepOf (withV [(2, 5)] State.reset) 0x8236).map (fun t => (t.v 2, t.v 15)) = some (2, 1) ∧
    (stepOf (withV [(15, 3)] State.reset) 0x8F06).map (fun t => t.v 15) = some 0 := by decide
/-- R91's example and 8XY7-2. -/
theorem test_subnReg :
    (stepOf (withV [(0, 7), (1, 5)] State.reset) 0x8017).map (fun t => (t.v 0, t.v 15)) = some (0xFE, 0) ∧
    (stepOf (withV [(15, 5), (1, 3)] State.reset) 0x8F17).map (fun t => t.v 15) = some 0 := by decide
/-- 8XYE-1, 8XYE-2, 8XYE-3. -/
theorem test_shl :
    (stepOf (withV [(2, 0x81)] State.reset) 0x823E).map (fun t => (t.v 2, t.v 15)) = some (2, 1) ∧
    (stepOf (withV [(15, 0x80)] State.reset) 0x8F0E).map (fun t => t.v 15) = some 2 ∧
    (stepOf (withV [(15, 0x7F)] State.reset) 0x8F0E).map (fun t => t.v 15) = some 0 := by decide
/-- CXNN: the byte is free, the rest is not. -/
theorem test_rnd : (stepOf (withV [(3, 9)] State.reset) 0xC3F0).map (fun t => (t.v 4, t.pc, t.draws)) =
    some (0, 0x202, 1) := by decide
/-- CXNN-3: with NN = 0 the result is 0 for every draw. -/
theorem test_rnd_zero : (stepOf (withV [(3, 9)] State.reset) 0xC300).map (fun t => t.v 3) = some 0 :=
  congrArg some (BitVec.and_zero (x := Config.randomByte 0))

/-! ## Address register and memory -/

/-- ANNN-1. -/
theorem test_ldI : (stepOf State.reset 0xAFFF).map (fun t => t.ireg) = some 0x0FFF := by decide
/-- FX1E-1 and FX1E-2. -/
theorem test_addI :
    (stepOf (withV [(0, 1), (15, 9)] (State.reset.setI 0xFFFF)) 0xF01E).map (fun t => (t.ireg, t.v 15)) = some (0, 9) ∧
    (stepOf (withV [(0, 1)] (State.reset.setI 0x0FFF)) 0xF01E).map (fun t => t.ireg) = some 0x1000 := by decide
/-- FX29-2 and FX29-1. -/
theorem test_ldF :
    (stepOf (withV [(0, 0xFF)] State.reset) 0xF029).map (fun t => t.ireg) = some 0x4FB ∧
    (stepOf (withV [(0, 0x10)] State.reset) 0xF029).map (fun t => t.ireg) = some 0x050 := by decide
/-- E5, and FX33-1: digits that are zero in memory. -/
theorem test_ldB :
    (stepOf (withV [(0, 156)] (State.reset.setI 0x300)) 0xF033).map
      (fun t => ([0x300, 0x301, 0x302, 0x303].map t.mem.read, t.ireg)) = some ([1, 5, 6, 0], 0x300) ∧
    (stepOf (withMem [(0x300, 9), (0x301, 9), (0x302, 9)] (State.reset.setI 0x300)) 0xF033).map
      (fun t => [0x300, 0x301, 0x302].map t.mem.read) = some [0, 0, 0] := by decide
/-- FX33-3. -/
theorem test_ldB_faults : faultOf (withV [(0, 1)] (State.reset.setI 0xFFE)) 0xF033 =
    some (.memoryOutOfRange, 3, 0x200, some 0xF033, some 0x1000) := by decide
/-- FX55-1. -/
theorem test_ldMemVx :
    (stepOf (withV [(0, 1), (15, 15)] (State.reset.setI 0xFF0)) 0xFF55).map
      (fun t => ([0xFF0, 0xFF1, 0xFFE, 0xFFF].map t.mem.read, t.ireg)) = some ([1, 0, 0, 15], 0xFF0) := by decide
/-- FX55-2. -/
theorem test_ldMemVx_faults : faultOf (withV [(0, 1), (15, 15)] (State.reset.setI 0xFF1)) 0xFF55 =
    some (.memoryOutOfRange, 3, 0x200, some 0xFF55, some 0x1000) := by decide
/-- FX65-2. -/
theorem test_ldVxMem :
    (stepOf (withMem [(0x300, 0x11), (0x30F, 0xAB)] (State.reset.setI 0x300)) 0xFF65).map
      (fun t => (t.v 0, t.v 1, t.v 14, t.v 15, t.ireg)) = some (0x11, 0, 0, 0xAB, 0x300) := by decide
/-- FX65-1: the same fault, and V[0] is not loaded. -/
theorem test_ldVxMem_faults : (stepOf (withV [(0, 7)] (withMem [(0xFFE, 1)] (State.reset.setI 0xFFE))) 0xF265).map
    (fun t => (t.v 0, t.fault.map (fun r => r.info))) = some (7, some (some 0x1000)) := by decide

/-! ## Timers, keys, fetch, signals -/

/-- FX07-1 and FX07-2. -/
theorem test_ldVxDt :
    (stepOf (State.reset.setDt 5) 0xF307).map (fun t => (t.v 3, t.dt)) = some (5, 4) ∧
    (stepOf State.reset 0xF307).map (fun t => (t.v 3, t.dt)) = some (0, 0) := by decide
/-- FX0A-1. -/
theorem test_ldVxK_takes_lowest :
    (stepOf (withKeys [3, 9] (State.reset.setDt 2)) 0xF00A).map (fun t => (t.v 0, t.pc, t.dt)) = some (3, 0x202, 1) := by
  decide
/-- FX0A-2. -/
theorem test_ldVxK_waits :
    (stepOf (withV [(0, 0x55)] ((State.reset.setDt 2).setSt 1)) 0xF00A).map
      (fun t => (t.pc, t.v 0, t.dt, t.st, t.redraw, t.tone)) = some (0x200, 0x55, 1, 0, false, true) := by decide
/-- FX15-1 and FX15-2. -/
theorem test_ldDtVx :
    (stepOf (withV [(0, 3)] State.reset) 0xF015).map (fun t => t.dt) = some 2 ∧
    (stepOf (State.reset.setDt 9) 0xF015).map (fun t => t.dt) = some 0 := by decide
/-- FX18-1, FX18-2, FX18-3. -/
theorem test_ldStVx :
    (stepOf (withV [(0, 1)] State.reset) 0xF018).map (fun t => (t.st, t.tone)) = some (0, true) ∧
    (stepOf (State.reset.setSt 5) 0xF018).map (fun t => (t.st, t.tone)) = some (0, false) ∧
    (stepOf (withV [(0, 2)] State.reset) 0xF018).map (fun t => (t.st, t.tone)) = some (1, false) := by decide
/-- FETCH-1: no tick. -/
theorem test_fetch_faults :
    faultOf (State.reset.setPc 0xFFF) 0 = some (.fetchOutOfRange, 2, 0xFFF, none, some 0xFFF) ∧
    (stepOf ((State.reset.setPc 0xFFF).setDt 3) 0).map (fun t => (t.pc, t.dt)) = some (0xFFF, 3) := by decide
/-- FETCH-2 and FETCH-3. -/
theorem test_fetch_edges :
    (stepOf (State.reset.setPc 0xFFE) 0x1200).map (fun t => t.pc) = some 0x200 ∧
    (stepOf (State.reset.setPc 0x201) 0x6005).map (fun t => (t.v 0, t.pc)) = some (5, 0x203) := by decide
/-- E10: nothing changes, and there is no further step. -/
theorem test_fatal_opcode :
    (stepOf (withV [(0, 1)] ((State.reset.setDt 3).setSt 1)) 0xFFFF).map
      (fun t => ([t.v 0, t.dt, t.st], t.pc, t.tone, match step t with | .fault _ => true | _ => false)) =
    some ([1, 3, 1], 0x200, false, true) := by decide
/-- E7: an image, as the loader gives it. -/
theorem test_init : (State.init [0x60, 0x05]).map
    (fun s => match step s with | .next t => (t.v 0, t.pc) | _ => (0, 0)) = some (5, 0x202) := by decide

/-! ## Witnesses: states and operands that meet the statements' hypotheses -/

theorem witness_EncodeDecodeRoundTrip : decode 0x8236#16 = .ok (.shr 2 3) := rfl
theorem witness_UnrecognizedOpcodesAreThoseListed :
    [0x00E1#16, 0x5121, 0x8008, 0x9001, 0xE09F, 0xF066].all unrecognized = true := by decide
theorem witness_InitLeavesResetValues_fits : (List.replicate 3584 0x11#8).length ≤ 3584 :=
  Nat.le_of_eq List.length_replicate
theorem witness_InitLeavesResetValues_too_long : 3584 < (List.replicate 3585 0x11#8).length :=
  Nat.lt_of_lt_of_eq (Nat.lt_succ_self 3584) List.length_replicate.symm
theorem witness_WriteChangesExactlyOneByte : Memory.wf [(0x300, 1#8)] = true ∧ 0xFFF < 4096 := by decide
theorem witness_CanonicalMemoriesAreEqual :
    Memory.wf [(0x300, 1#8)] = true ∧ Memory.wf (Memory.write [] 0x300 1#8) = true ∧
    ∀ a, a < 4096 → Memory.read [(0x300, 1#8)] a = Memory.read (Memory.write [] 0x300 1#8) a :=
  ⟨by decide, by decide, fun _ _ => rfl⟩
theorem witness_FetchIsBigEndian :
    0xFFE < (State.reset.setPc 0xFFF).pc.toNat ∧ (State.reset.setPc 0xFFE).pc.toNat ≤ 0xFFE := by decide
theorem witness_StoredBytesAreFetched :
    State.reset.mem.wf = true ∧ (State.reset.setI 0xFF0).ireg.toNat + (15 : Nibble).toNat ≤ 0xFFF ∧
    14 < (15 : Nibble).toNat := by decide

/-- A state with an instruction at PC. -/
def atPc (w : Nat) : State := State.reset.withFetchWord 16 w

theorem witness_StepRunsDecodedInstruction :
    (atPc 0xD011).fault = none ∧ (atPc 0xD011).pc.toNat ≤ 0xFFE ∧
    decode (opcodeOfBytes ((atPc 0xD011).mem.read 0x200) ((atPc 0xD011).mem.read 0x201)) = .ok (.drw 0 1 1) :=
  ⟨by decide, by decide, rfl⟩
theorem witness_TickEndsEachStep :
    (atPc 0xF018).fault = none ∧ (atPc 0xF018).fetch = some (encode (.ldStVx 0)) ∧
    (∃ t, exec (.ldStVx 0) (atPc 0xF018).beginStep = .next t ∧ t.fault = none) := ⟨by decide, by decide, _, rfl, rfl⟩
theorem witness_FetchAndDecodeFaultsAreTaken :
    State.reset.fault = none ∧ 0xFFE < (State.reset.setPc 0xFFF).pc.toNat ∧ State.reset.fetch = some 0#16 ∧
    decode 0#16 = .error (.unrecognizedOpcode 0#16) :=
  ⟨by decide, by decide, by decide, rfl⟩
theorem witness_FaultsArePrecise : ∃ t r, step (atPc 0x00EE) = .next t ∧ t.fault = some r := ⟨_, _, rfl, rfl⟩
/-- The codes of 60_exceptions.md R105, one state for each. -/
theorem witness_FaultsArePrecise_codes :
    [faultOf State.reset 0, faultOf (State.reset.setPc 0xFFF) 0, faultOf (State.reset.setI 0xFFF) 0xD002,
      faultOf (withSp 16 State.reset) 0x2000, faultOf State.reset 0x00EE,
      faultOf (withV [(0, 16)] State.reset) 0xE09E].map (fun f => f.map (fun r => r.2.1)) =
    [some 1, some 2, some 3, some 4, some 5, some 6] := by decide
theorem witness_OnlyRecordedFaultsStopTheCore :
    (State.reset.raise .stackUnderflow (some 0x00EE#16) none).fault.isSome = true ∧ State.reset.fault = none := by decide
theorem witness_RedrawExactlyOnDraw : ∃ t, step (atPc 0xD011) = .next t ∧ t.redraw = true := ⟨_, rfl, rfl⟩
theorem witness_StepKeepsInvariant : (atPc 0x6005).Inv ∧ ∃ t, step (atPc 0x6005) = .next t :=
  ⟨⟨by decide, (fun r h => by cases h), (fun h => by cases h)⟩, _, rfl⟩
theorem witness_ReachableStatesMeetInvariant : Reachable State.reset := .init [] _ rfl
theorem witness_OnlyNamedInstructionsWrite :
    (∃ t, exec (.ldB 0) (State.reset.setI 0x300) = .next t) ∧
    (∃ t, exec (.ldVxMem 14) (State.reset.setI 0x300) = .next t) ∧ (15 : Nibble) ∉ registersWritten (.ldVxMem 14) ∧
    (∃ t, exec (.ldVxK 0) State.reset = .next t) ∧ ∀ k : Fin 16, State.reset.keys[k] = false :=
  ⟨⟨_, rfl⟩, ⟨_, rfl⟩, by decide, ⟨_, rfl⟩, by decide⟩
theorem witness_PcAfterEachInstruction : ∃ t, State.reset.fault = none ∧ exec .cls State.reset = .next t ∧ t.fault = none :=
  ⟨_, rfl, rfl, rfl⟩
theorem witness_NoInstructionReadsSoundTimer : ∃ t, exec (.ldVxDt 0) State.reset = .next t := ⟨_, rfl⟩
theorem witness_NothingDependsOnTheTrace :
    (∃ t, step (atPc 0x6005) = .next t) ∧
    ∃ f, step (State.reset.raise .stackUnderflow (some 0x00EE#16) none) = .fault f := ⟨⟨_, rfl⟩, _, rfl⟩
theorem witness_DrawSpriteResult_last_byte :
    (State.reset.setI 0xFF1).ireg.toNat + (15 : Nibble).toNat ≤ 4096 ∧
    ∃ rows, rows = (List.range (15 : Nibble).toNat).map (fun r => (State.reset.setI 0xFF1).mem.read (0xFF1 + r)) :=
  ⟨by decide, _, rfl⟩
theorem witness_DrawSpriteResult_hits : SpriteHits [0x80] 63 31 2047 ∧ ¬ SpriteHits [0x80] 63 31 2046 := by
  refine ⟨⟨0, 0, by decide, by decide, by decide, by decide⟩, ?_⟩
  rintro ⟨r, b, hr, hb, hbit, hj⟩
  obtain rfl : r = 0 := Nat.lt_one_iff.mp hr
  have key : ∀ b : Fin 8, (0x80 : Byte).getLsbD (7 - b.val) = true → b.val = 0 := by decide
  have hb0 : b = 0 := key ⟨b, hb⟩ hbit
  subst hb0
  exact absurd hj (by decide)
theorem witness_DrawingTwiceRestoresTheScreen :
    (0 : Nibble) ≠ 15 ∧ (1 : Nibble) ≠ 15 ∧ (State.reset.setI 0x300).ireg.toNat + (1 : Nibble).toNat ≤ 4096 := by decide
theorem witness_ReturnResult : (withSp 16 State.reset).sp.val = (15 : Fin 16).val + 1 ∧
    (withSp 1 State.reset).sp.val = (0 : Fin 16).val + 1 := by decide
theorem witness_CallResult : (withSp 15 State.reset).sp.val = (15 : Fin 16).val ∧
    State.reset.sp.val = (0 : Fin 16).val := by decide
theorem witness_StackFaultsAreTaken : (withSp 16 State.reset).sp.val = 16 ∧ State.reset.sp.val = 0 := by decide
theorem witness_ReturnUndoesCall : (withSp 15 State.reset).sp.val < 16 := by decide
theorem witness_SkipOnKeyResult :
    ((withV [(5, 15)] State.reset).v 5).toNat = (15 : Fin 16).val ∧ 15 < ((withV [(5, 16)] State.reset).v 5).toNat := by
  decide
theorem witness_ShiftResult : (2 : Nibble) ≠ 15 ∧ (15 : Nibble) = 15 := by decide
theorem witness_StoreBcdResult : State.reset.mem.wf = true ∧ (State.reset.setI 0xFFD).ireg.toNat + 2 ≤ 0xFFF := by decide
theorem witness_StoreRegistersResult :
    State.reset.mem.wf = true ∧ (State.reset.setI 0xFF0).ireg.toNat + (15 : Nibble).toNat ≤ 0xFFF := by decide
theorem witness_LoadRegistersResult : (State.reset.setI 0xFF0).ireg.toNat + (15 : Nibble).toNat ≤ 0xFFF := by decide
theorem witness_DataFaultsAreTaken :
    (1 : Nibble) ≠ 0 ∧ 0x1000 < (State.reset.setI 0x1000).ireg.toNat + (1 : Nibble).toNat ∧
    0xFFF < (State.reset.setI 0xFFE).ireg.toNat + 2 ∧ 0xFFF < (State.reset.setI 0x1000).ireg.toNat + (0 : Nibble).toNat := by
  decide
theorem witness_LoadAfterStoreRestoresRegisters :
    State.reset.mem.wf = true ∧ (State.reset.setI 0xFF0).ireg.toNat + (15 : Nibble).toNat ≤ 0xFFF := by decide
theorem witness_ReadDelayTimerResult :
    (atPc 0xF307).fault = none ∧ (atPc 0xF307).fetch = some (encode (.ldVxDt 3)) := by decide
theorem witness_WaitKeyResult_pressed :
    (withKeys [3, 9] State.reset).keys[(3 : Fin 16)] = true ∧
    ∀ j : Fin 16, j < 3 → (withKeys [3, 9] State.reset).keys[j] = false := by decide
theorem witness_WaitKeyResult_waiting :
    (∀ k : Fin 16, (atPc 0xF20A).keys[k] = false) ∧ (atPc 0xF20A).fault = none ∧
    (atPc 0xF20A).fetch = some (encode (.ldVxK 2)) := by decide
theorem witness_SetDelayTimerResult :
    (atPc 0xF015).fault = none ∧ (atPc 0xF015).fetch = some (encode (.ldDtVx 0)) := by decide
theorem witness_SetSoundTimerResult :
    (atPc 0xF018).fault = none ∧ (atPc 0xF018).fetch = some (encode (.ldStVx 0)) := by decide

end Sys2Proof.Tests
end

section
/-! The rows of the opcode map exclude one another, so an opcode decodes by any row that it matches. -/

namespace Sys2Proof

/-- Two rows clash when they fix some digit to different values: no opcode matches both. -/
def OpcodeRow.Clash (r q : OpcodeRow) : Prop := r.pattern &&& q.mask ≠ q.pattern &&& r.mask

theorem OpcodeRow.clash_symm : Std.Symm OpcodeRow.Clash := ⟨fun _ _ h => h.symm⟩

theorem OpcodeRow.Clash.not_both_match {r q : OpcodeRow} (h : r.Clash q) {op : Word}
    (hr : r.matchesOpcode op = true) (hq : q.matchesOpcode op = true) : False := by
  simp only [OpcodeRow.matchesOpcode, beq_iff_eq] at hr hq
  exact h (by rw [← hr, ← hq, BitVec.and_assoc, BitVec.and_assoc, BitVec.and_comm r.mask])

/-- A finite check of the table of 30_encoding.md R57: any two of its rows clash. -/
theorem opcodeMap_pairwise_clash : opcodeMap.Pairwise OpcodeRow.Clash := by
  unfold OpcodeRow.Clash
  decide

/-- The row of the opcode map that an opcode matches is the only one (30_encoding.md R58). -/
theorem opcodeMap_row_unique {r q : OpcodeRow} {op : Word} (hr : r ∈ opcodeMap) (hq : q ∈ opcodeMap)
    (hrm : r.matchesOpcode op = true) (hqm : q.matchesOpcode op = true) : r = q := by
  by_contra hne
  have := OpcodeRow.clash_symm
  have hclash : r.Clash q := opcodeMap_pairwise_clash.forall hr hq hne
  exact hclash.not_both_match hrm hqm

/-- The decoder's search order does not matter: the row that matches is the one it finds (30_encoding.md R59). -/
theorem decode_of_row {r : OpcodeRow} {op : Word} (hr : r ∈ opcodeMap) (hm : r.matchesOpcode op = true) :
    decode op = .ok (r.build op) := by
  have hfound : (opcodeMap.find? (fun r => r.matchesOpcode op)).isSome := List.find?_isSome.mpr ⟨r, hr, hm⟩
  obtain ⟨q, hq⟩ := Option.isSome_iff_exists.mp hfound
  have hqm : q.matchesOpcode op = true := List.find?_some (p := fun r : OpcodeRow => r.matchesOpcode op) hq
  have hrq : q = r := opcodeMap_row_unique (List.mem_of_find?_eq_some hq) hr hqm hm
  rw [decode, hq, hrq]

end Sys2Proof

namespace Sys2Proof.Machine

/-- `OpcodeMatch` of an instruction is all that encoding and decoding need. -/
theorem encodes_of_opcodeMatch {i : Instr} (h : Laws.OpcodeMatch.Statement i) : Encodes (encode i) i := by
  obtain ⟨-, r, hr, hm, hbuild⟩ := h
  exact ⟨by rw [decode_of_row hr hm, hbuild], rfl⟩

end Sys2Proof.Machine
end

section
/-! Control transfer (41_control.md): what a write of PC leaves unchanged, and the jump. -/

namespace Sys2Proof.Machine

theorem zextAddr_toNat (nnn : Addr12) : (zextAddr nnn).toNat = nnn.toNat :=
  BitVec.toNat_setWidth_of_le (by decide)

/-- A write of PC is inside every frame: PC is the one piece of state that `Frame` leaves open. -/
theorem State.frame_setPc (w : Writes) (s : State) (a : Word) : Frame w s (s.setPc a) where
  regs x _ := s.v_setPc a x
  ireg _ := s.setPc_ireg a
  stack _ _ := rfl
  sp _ := s.setPc_sp a
  dt _ := s.setPc_dt a
  st _ := s.setPc_st a
  fb _ _ := rfl
  keys := s.setPc_keys a
  mem _ _ := rfl
  fault _ := s.setPc_fault a
  trace _ := s.setPc_trace a
  redraw _ := s.setPc_redraw a
  tone _ := s.setPc_tone a
  draws _ := s.setPc_draws a

/-- The meaning of 1NNN (41_control.md R70). -/
theorem exec_jp (nnn : Addr12) (s : State) : exec (.jp nnn) s = .next (s.setPc (zextAddr nnn)) := rfl

/-- Settles O28: the jump's row decides its opcode, and its meaning is one write of PC. -/
theorem jumpResult : Obligations.JumpResult := by
  unfold Obligations.JumpResult
  intro nnn
  refine ⟨encodes_of_opcodeMatch (Laws.OpcodeMatch.jp nnn), fun s => ?_⟩
  exact ⟨_, exec_jp nnn s, zextAddr_toNat nnn, s.frame_setPc {} (zextAddr nnn)⟩

end Sys2Proof.Machine
end

section
/-! Skips (42_skip.md): a skip is one write of PC, chosen by its condition (R73); then the skips on an immediate byte. -/

namespace Sys2Proof.Machine

/-- An instruction that skips if `c`. -/
theorem runs_of_exec_skipIf {i : Instr} {s : State} {c : Bool} (h : exec i s = .next (s.skipIf c)) :
    Runs i s {} (fun t => t.pc = if c then s.pc + 4#16 else s.pc + 2#16) := by
  rw [State.skipIf_eq] at h
  exact ⟨_, h, s.setPc_pc _, s.frame_setPc {} _⟩

/-- An instruction that skips unless `c`: the paths of `runs_of_exec_skipIf`, exchanged. -/
theorem runs_of_exec_skipIf_not {i : Instr} {s : State} {c : Bool} (h : exec i s = .next (s.skipIf !c)) :
    Runs i s {} (fun t => t.pc = if c then s.pc + 2#16 else s.pc + 4#16) := by
  cases c with
  | true => exact runs_of_exec_skipIf h
  | false => exact runs_of_exec_skipIf h

/-- The meaning of 3XNN (42_skip.md R74). -/
theorem exec_seImm (x : Nibble) (nn : Byte) (s : State) :
    exec (.seImm x nn) s = .next (s.skipIf (s.v x == nn)) := rfl

/-- The meaning of 4XNN (42_skip.md R75): the condition of 3XNN, negated. -/
theorem exec_sneImm (x : Nibble) (nn : Byte) (s : State) :
    exec (.sneImm x nn) s = .next (s.skipIf !(s.v x == nn)) := rfl

/-- Settles O33: each row decides its opcode, and the two skips share one condition, which 4XNN negates. -/
theorem skipOnImmediateResult : Obligations.SkipOnImmediateResult := by
  unfold Obligations.SkipOnImmediateResult
  intro x nn
  refine ⟨encodes_of_opcodeMatch (Laws.OpcodeMatch.seImm x nn), encodes_of_opcodeMatch (Laws.OpcodeMatch.sneImm x nn),
    fun s => ⟨?_, ?_⟩⟩
  · simpa only [beq_iff_eq] using runs_of_exec_skipIf (exec_seImm x nn s)
  · simpa only [beq_iff_eq] using runs_of_exec_skipIf_not (exec_sneImm x nn s)

end Sys2Proof.Machine
end

section
/-! Register loads and logic (43_alu.md): what a write of one general register leaves unchanged, and the instructions
that are one such write and the advance of PC. -/

namespace Sys2Proof.Machine

/-- `encodes_of_opcodeMatch` for an opcode written out as its digits. The equation is a hypothesis of its own, so that
`i` is known before Lean compares the digits with `encode i`: comparing them with `i` unknown takes seconds. -/
theorem encodes_of_encode_eq {op : Word} {i : Instr} (h : Laws.OpcodeMatch.Statement i) (hop : encode i = op) :
    Encodes op i :=
  hop ▸ encodes_of_opcodeMatch h

/-- Two runs of writes inside one frame make one. -/
theorem Frame.trans {w : Writes} {s t u : State} (h : Frame w s t) (h' : Frame w t u) : Frame w s u where
  regs x hx := (h'.regs x hx).trans (h.regs x hx)
  ireg hw := (h'.ireg hw).trans (h.ireg hw)
  stack k hk := (h'.stack k hk).trans (h.stack k hk)
  sp hw := (h'.sp hw).trans (h.sp hw)
  dt hw := (h'.dt hw).trans (h.dt hw)
  st hw := (h'.st hw).trans (h.st hw)
  fb hw j := (h'.fb hw j).trans (h.fb hw j)
  keys := h'.keys.trans h.keys
  mem a ha := (h'.mem a ha).trans (h.mem a ha)
  fault hw := (h'.fault hw).trans (h.fault hw)
  trace hw := (h'.trace hw).trans (h.trace hw)
  redraw hw := (h'.redraw hw).trans (h.redraw hw)
  tone hw := (h'.tone hw).trans (h.tone hw)
  draws hw := (h'.draws hw).trans (h.draws hw)

/-- A write of `V[x]` is inside every frame that names `x`. -/
theorem State.frame_setV {w : Writes} (s : State) {x : Nibble} (b : Byte) (hx : x ∈ w.regs) :
    Frame w s (s.setV x b) where
  regs _ hy := s.v_setV_other b (ne_of_mem_of_not_mem hx hy).symm
  ireg _ := s.setV_ireg x b
  stack _ _ := rfl
  sp _ := s.setV_sp x b
  dt _ := s.setV_dt x b
  st _ := s.setV_st x b
  fb _ _ := rfl
  keys := s.setV_keys x b
  mem _ _ := rfl
  fault _ := s.setV_fault x b
  trace _ := s.setV_trace x b
  redraw _ := s.setV_redraw x b
  tone _ := s.setV_tone x b
  draws _ := s.setV_draws x b

/-- The advance of PC is inside every frame. -/
theorem State.frame_advance (w : Writes) (s : State) : Frame w s s.advance := s.frame_setPc w _

/-- A run whose next state meets a claim meets every consequence of it. -/
theorem Runs.imp {i : Instr} {s : State} {w : Writes} {p q : State → Prop} (h : Runs i s w p) (hpq : ∀ t, p t → q t) :
    Runs i s w q := by
  obtain ⟨t, hexec, hp, hframe⟩ := h
  exact ⟨t, hexec, hpq t hp, hframe⟩

/-- An instruction that writes the byte `b` to `V[x]` and advances PC. -/
theorem runs_of_exec_setV {i : Instr} {s : State} {x : Nibble} {b : Byte}
    (h : exec i s = .next (s.setV x b).advance) :
    Runs i s { regs := [x] } (fun t => t.v x = b ∧ t.pc = s.pc + 2#16) :=
  ⟨_, h, ⟨s.v_setV_same x b, rfl⟩, (s.frame_setV b (List.mem_singleton_self x)).trans (State.frame_advance _ _)⟩

/-- The meaning of 6XNN (43_alu.md R82). -/
theorem exec_ldImm (x : Nibble) (nn : Byte) (s : State) : exec (.ldImm x nn) s = .next (s.setV x nn).advance := rfl

/-- The meaning of 7XNN (43_alu.md R83). -/
theorem exec_addImm (x : Nibble) (nn : Byte) (s : State) :
    exec (.addImm x nn) s = .next (s.setV x (s.v x + nn)).advance := rfl

/-- The meaning of 8XY0 (43_alu.md R84). -/
theorem exec_ldReg (x y : Nibble) (s : State) : exec (.ldReg x y) s = .next (s.setV x (s.v y)).advance := rfl

/-- The meaning of 8XY1 (43_alu.md R85). -/
theorem exec_orReg (x y : Nibble) (s : State) :
    exec (.orReg x y) s = .next (s.setV x (s.v x ||| s.v y)).advance := rfl

/-- The meaning of 8XY2 (43_alu.md R86). -/
theorem exec_andReg (x y : Nibble) (s : State) :
    exec (.andReg x y) s = .next (s.setV x (s.v x &&& s.v y)).advance := rfl

/-- The meaning of 8XY3 (43_alu.md R87). -/
theorem exec_xorReg (x y : Nibble) (s : State) :
    exec (.xorReg x y) s = .next (s.setV x (s.v x ^^^ s.v y)).advance := rfl

/-- Settles O38: each row decides its opcode, and each instruction is one write of `V[x]`, whose bits are those of
the bitwise operation. -/
theorem copyAndLogicResult : Obligations.CopyAndLogicResult := by
  unfold Obligations.CopyAndLogicResult
  intro x y
  refine ⟨encodes_of_encode_eq (Laws.OpcodeMatch.ldReg x y) rfl, encodes_of_encode_eq (Laws.OpcodeMatch.orReg x y) rfl,
    encodes_of_encode_eq (Laws.OpcodeMatch.andReg x y) rfl, encodes_of_encode_eq (Laws.OpcodeMatch.xorReg x y) rfl,
    fun s => ⟨?_, ?_, ?_, ?_⟩⟩
  · exact runs_of_exec_setV (exec_ldReg x y s)
  · refine (runs_of_exec_setV (exec_orReg x y s)).imp fun t ⟨hv, hpc⟩ => ⟨fun b => ?_, hpc⟩
    rw [hv, BitVec.getLsbD_or]
  · refine (runs_of_exec_setV (exec_andReg x y s)).imp fun t ⟨hv, hpc⟩ => ⟨fun b => ?_, hpc⟩
    rw [hv, BitVec.getLsbD_and]
  · refine (runs_of_exec_setV (exec_xorReg x y s)).imp fun t ⟨hv, hpc⟩ => ⟨fun b => ?_, hpc⟩
    rw [hv, BitVec.getLsbD_xor]

/-- Settles O36: the row decides the opcode, and the meaning is one write of `V[x]`. -/
theorem loadImmediateResult : Obligations.LoadImmediateResult := by
  unfold Obligations.LoadImmediateResult
  intro x nn
  refine ⟨encodes_of_encode_eq (Laws.OpcodeMatch.ldImm x nn) rfl, fun s => ?_⟩
  exact runs_of_exec_setV (exec_ldImm x nn s)

/-- Settles O37: the write is of a sum of bytes, which is the sum modulo 256. -/
theorem addImmediateResult : Obligations.AddImmediateResult := by
  unfold Obligations.AddImmediateResult
  intro x nn
  refine ⟨encodes_of_encode_eq (Laws.OpcodeMatch.addImm x nn) rfl, fun s => ?_⟩
  refine (runs_of_exec_setV (exec_addImm x nn s)).imp fun t ⟨hv, hpc⟩ => ⟨?_, hpc⟩
  rw [hv, BitVec.toNat_add]

end Sys2Proof.Machine
end

section
/-! Address register (44_index_memory.md): what a write of `I` leaves unchanged, and the instructions that are one such
write and the advance of PC. -/

namespace Sys2Proof.Machine

theorem zextByte_toNat (b : Byte) : (zextByte b).toNat = b.toNat :=
  BitVec.toNat_setWidth_of_le (by decide)

/-- The address of a glyph does not wrap: it is at most 255 * 5 (44_index_memory.md R96). -/
theorem zextByte_mul_five_toNat (b : Byte) : (zextByte b * 5#16).toNat = b.toNat * 5 := by
  have hb : b.toNat < 256 := b.isLt
  rw [BitVec.toNat_mul, zextByte_toNat]
  exact Nat.mod_eq_of_lt (show b.toNat * 5 < 65536 by omega)

/-- A write of `I` is inside every frame that names `I`. -/
theorem State.frame_setI {w : Writes} (s : State) (a : Word) (hw : w.ireg = true) : Frame w s (s.setI a) where
  regs x _ := s.v_setI a x
  ireg h := absurd hw (Bool.eq_false_iff.mp h)
  stack _ _ := rfl
  sp _ := s.setI_sp a
  dt _ := s.setI_dt a
  st _ := s.setI_st a
  fb _ _ := rfl
  keys := s.setI_keys a
  mem _ _ := rfl
  fault _ := s.setI_fault a
  trace _ := s.setI_trace a
  redraw _ := s.setI_redraw a
  tone _ := s.setI_tone a
  draws _ := s.setI_draws a

/-- An instruction that writes the word `a` to `I` and advances PC. -/
theorem runs_of_exec_setI {i : Instr} {s : State} {a : Word} (h : exec i s = .next (s.setI a).advance) :
    Runs i s { ireg := true } (fun t => t.ireg = a ∧ t.pc = s.pc + 2#16) :=
  ⟨_, h, ⟨s.setI_ireg a, rfl⟩, (s.frame_setI a rfl).trans (State.frame_advance _ _)⟩

/-- The meaning of ANNN (44_index_memory.md R94). -/
theorem exec_ldI (nnn : Addr12) (s : State) : exec (.ldI nnn) s = .next (s.setI (zextAddr nnn)).advance := rfl

/-- The meaning of FX1E (44_index_memory.md R95). -/
theorem exec_addI (x : Nibble) (s : State) :
    exec (.addI x) s = .next (s.setI (s.ireg + zextByte (s.v x))).advance := rfl

/-- The meaning of FX29 (44_index_memory.md R96). -/
theorem exec_ldF (x : Nibble) (s : State) : exec (.ldF x) s = .next (s.setI (zextByte (s.v x) * 5#16)).advance := rfl

/-- Settles O43: the row decides the opcode, and the meaning is one write of `I`, whose zero extension keeps the
address. -/
theorem loadAddressResult : Obligations.LoadAddressResult := by
  unfold Obligations.LoadAddressResult
  intro nnn
  refine ⟨encodes_of_encode_eq (Laws.OpcodeMatch.ldI nnn) rfl, fun s => ?_⟩
  refine (runs_of_exec_setI (exec_ldI nnn s)).imp fun t ⟨hi, hpc⟩ => ⟨?_, hpc⟩
  rw [hi, zextAddr_toNat]

/-- Settles O44: the write is of a sum of words, which is the sum modulo 65536; a write of `I` alone leaves VF. -/
theorem addToAddressResult : Obligations.AddToAddressResult := by
  unfold Obligations.AddToAddressResult
  intro x
  refine ⟨encodes_of_encode_eq (Laws.OpcodeMatch.addI x) rfl, fun s => ?_⟩
  refine (runs_of_exec_setI (exec_addI x s)).imp fun t ⟨hi, hpc⟩ => ⟨?_, hpc⟩
  rw [hi, BitVec.toNat_add, zextByte_toNat]

/-- Settles O45: the write is of a product that fits 16 bits for every byte. -/
theorem pointAtGlyphResult : Obligations.PointAtGlyphResult := by
  unfold Obligations.PointAtGlyphResult
  intro x
  refine ⟨encodes_of_encode_eq (Laws.OpcodeMatch.ldF x) rfl, fun s => ?_⟩
  refine (runs_of_exec_setI (exec_ldF x s)).imp fun t ⟨hi, hpc⟩ => ⟨?_, hpc⟩
  rw [hi, zextByte_mul_five_toNat]

end Sys2Proof.Machine
end

section
/-! Timers and keys (45_timers_keys.md): what a write of a timer leaves unchanged, the step that runs an instruction to
its end, with its tick (R100), and the four instructions. -/

namespace Sys2Proof.Machine

/-! ## Writes of a timer -/

/-- A state is inside every frame of itself. -/
theorem Frame.refl (w : Writes) (s : State) : Frame w s s := s.frame_setPc w s.pc

/-- A write of `DT` is inside every frame that names `DT`. -/
theorem State.frame_setDt {w : Writes} (s : State) (b : Byte) (hw : w.dt = true) : Frame w s (s.setDt b) where
  __ := Frame.refl w s
  dt h := absurd hw (Bool.eq_false_iff.mp h)

/-- A write of `ST` is inside every frame that names `ST`. -/
theorem State.frame_setSt {w : Writes} (s : State) (b : Byte) (hw : w.st = true) : Frame w s (s.setSt b) where
  __ := Frame.refl w s
  st h := absurd hw (Bool.eq_false_iff.mp h)

/-! ## The step of an instruction that raises no fault -/

/-- A step whose instruction raises no fault ends with the instruction's next state, ticked and traced
(30_encoding.md R63). -/
theorem steps_of_exec {op : Word} {i : Instr} {s t : State} {post : State → Prop} (henc : Encodes op i)
    (hexec : exec i s.beginStep = .next t) (hfault : t.fault = s.fault)
    (hpost : t.fault = none → ∀ tr, post (t.tick.setTrace tr)) : Steps i s post := by
  intro hs hfetch
  obtain ⟨hdec, rfl⟩ := henc
  have ht : t.fault = none := hfault.trans hs
  refine ⟨_, step_of_decode_ok hs hfetch hdec hexec, ?_⟩
  rw [finishStep_of_running _ _ _ _ ht]
  exact hpost ht _

/-- The tick sets the tone signal exactly when it takes `ST` from 1 to 0 (60_exceptions.md R116). -/
theorem State.tick_tone_iff (s : State) : s.tick.tone = true ↔ s.st.toNat = 1 := by
  rw [State.tick_tone, Bool.and_eq_true, decide_eq_true_eq, decide_eq_true_eq, ← BitVec.toNat_inj, countDown_toNat,
    BitVec.toNat_ofNat]
  omega

/-! ## The instructions -/

/-- The meaning of FX07 (45_timers_keys.md R101). -/
theorem exec_ldVxDt (x : Nibble) (s : State) : exec (.ldVxDt x) s = .next (s.setV x s.dt).advance := rfl

/-- The meaning of FX0A with a key pressed (45_timers_keys.md R102). -/
theorem exec_ldVxK_of_firstKey (x : Nibble) {s : State} {k : Nat} (h : s.firstKey = some k) :
    exec (.ldVxK x) s = .next (s.setV x (BitVec.ofNat 8 k)).advance := by
  simp only [exec, execLdVxK, h]

/-- The meaning of FX0A with no key pressed (45_timers_keys.md R102). -/
theorem exec_ldVxK_waiting (x : Nibble) {s : State} (h : ∀ k : Fin 16, s.keys[k] = false) :
    exec (.ldVxK x) s = .next s := by
  simp only [exec, execLdVxK, s.firstKey_none h]

/-- The meaning of FX15 (45_timers_keys.md R103). -/
theorem exec_ldDtVx (x : Nibble) (s : State) : exec (.ldDtVx x) s = .next (s.setDt (s.v x)).advance := rfl

/-- The meaning of FX18 (45_timers_keys.md R104). -/
theorem exec_ldStVx (x : Nibble) (s : State) : exec (.ldStVx x) s = .next (s.setSt (s.v x)).advance := rfl

/-- Settles O51: the meaning is one write of `V[x]` with `DT`, which the step's tick then counts down. -/
theorem readDelayTimerResult : Obligations.ReadDelayTimerResult := by
  unfold Obligations.ReadDelayTimerResult
  intro x
  have henc := encodes_of_opcodeMatch (Laws.OpcodeMatch.ldVxDt x)
  refine ⟨henc, fun s => ⟨runs_of_exec_setV (exec_ldVxDt x s), ?_⟩⟩
  refine steps_of_exec henc (exec_ldVxDt x s.beginStep) rfl fun _ _ => ⟨?_, ?_⟩
  · exact s.beginStep.v_setV_same x s.dt
  · exact countDown_toNat s.dt

/-- Settles O52: with a key pressed the meaning is one write of `V[x]`; with none it is no write at all, so the step
changes by its tick alone, and PC still points at the same bytes. -/
theorem waitKeyResult : Obligations.WaitKeyResult := by
  unfold Obligations.WaitKeyResult
  intro x
  have henc := encodes_of_opcodeMatch (Laws.OpcodeMatch.ldVxK x)
  refine ⟨henc, fun s => ⟨fun k hk hmin => ?_, fun hnone => ⟨?_, ?_⟩⟩⟩
  · have hexec := exec_ldVxK_of_firstKey x (s.firstKey_some k hk hmin)
    refine (runs_of_exec_setV hexec).imp fun t ⟨hv, hpc⟩ => ⟨?_, hpc⟩
    rw [hv, BitVec.toNat_ofNat]
    exact Nat.mod_eq_of_lt (by omega)
  · exact ⟨s, exec_ldVxK_waiting x hnone, rfl, Frame.refl {} s⟩
  · refine steps_of_exec henc (exec_ldVxK_waiting x (s := s.beginStep) hnone) rfl fun hfault _ => ?_
    exact ⟨rfl, hfault, rfl, fun _ => rfl, countDown_toNat s.dt, countDown_toNat s.st⟩

/-- Settles O53: the meaning is one write of `DT`, and the same step's tick counts the written value down. -/
theorem setDelayTimerResult : Obligations.SetDelayTimerResult := by
  unfold Obligations.SetDelayTimerResult
  intro x
  have henc := encodes_of_opcodeMatch (Laws.OpcodeMatch.ldDtVx x)
  refine ⟨henc, fun s => ⟨?_, ?_⟩⟩
  · exact ⟨_, exec_ldDtVx x s, ⟨rfl, rfl⟩, (s.frame_setDt _ rfl).trans (State.frame_advance _ _)⟩
  · exact steps_of_exec henc (exec_ldDtVx x s.beginStep) rfl fun _ _ => countDown_toNat (s.v x)

/-- Settles O54: the meaning is one write of `ST`, so the same step's tick takes `ST` from 1 to 0 exactly when the
written value is 1. -/
theorem setSoundTimerResult : Obligations.SetSoundTimerResult := by
  unfold Obligations.SetSoundTimerResult
  intro x
  have henc := encodes_of_opcodeMatch (Laws.OpcodeMatch.ldStVx x)
  refine ⟨henc, fun s => ⟨?_, ?_⟩⟩
  · exact ⟨_, exec_ldStVx x s, ⟨rfl, rfl⟩, (s.frame_setSt _ rfl).trans (State.frame_advance _ _)⟩
  · refine steps_of_exec henc (exec_ldStVx x s.beginStep) rfl fun _ _ => ⟨?_, ?_⟩
    · exact countDown_toNat (s.v x)
    · exact (s.beginStep.setSt (s.v x)).advance.tick_tone_iff

end Sys2Proof.Machine
end

section
/-! The tick and the end of a step (60_exceptions.md R116): the opcode of every instruction decodes to it, the tick and
the write of the trace are inside the frames that name their fields, and so is the end of a step without a fault. -/

namespace Sys2Proof.Laws

/-- The family OpcodeMatch as one statement: every instruction has a row of the opcode map (30_encoding.md R57). -/
theorem OpcodeMatch.all : ∀ i : Instr, OpcodeMatch.Statement i
  | .cls => OpcodeMatch.cls
  | .ret => OpcodeMatch.ret
  | .jp nnn => OpcodeMatch.jp nnn
  | .call nnn => OpcodeMatch.call nnn
  | .seImm x nn => OpcodeMatch.seImm x nn
  | .sneImm x nn => OpcodeMatch.sneImm x nn
  | .seReg x y => OpcodeMatch.seReg x y
  | .ldImm x nn => OpcodeMatch.ldImm x nn
  | .addImm x nn => OpcodeMatch.addImm x nn
  | .ldReg x y => OpcodeMatch.ldReg x y
  | .orReg x y => OpcodeMatch.orReg x y
  | .andReg x y => OpcodeMatch.andReg x y
  | .xorReg x y => OpcodeMatch.xorReg x y
  | .addReg x y => OpcodeMatch.addReg x y
  | .subReg x y => OpcodeMatch.subReg x y
  | .shr x y => OpcodeMatch.shr x y
  | .subnReg x y => OpcodeMatch.subnReg x y
  | .shl x y => OpcodeMatch.shl x y
  | .sneReg x y => OpcodeMatch.sneReg x y
  | .ldI nnn => OpcodeMatch.ldI nnn
  | .jpV0 nnn => OpcodeMatch.jpV0 nnn
  | .rnd x nn => OpcodeMatch.rnd x nn
  | .drw x y n => OpcodeMatch.drw x y n
  | .skp x => OpcodeMatch.skp x
  | .sknp x => OpcodeMatch.sknp x
  | .ldVxDt x => OpcodeMatch.ldVxDt x
  | .ldVxK x => OpcodeMatch.ldVxK x
  | .ldDtVx x => OpcodeMatch.ldDtVx x
  | .ldStVx x => OpcodeMatch.ldStVx x
  | .addI x => OpcodeMatch.addI x
  | .ldF x => OpcodeMatch.ldF x
  | .ldB x => OpcodeMatch.ldB x
  | .ldMemVx x => OpcodeMatch.ldMemVx x
  | .ldVxMem x => OpcodeMatch.ldVxMem x

end Sys2Proof.Laws

namespace Sys2Proof.Machine

/-- The opcode of an instruction decodes to that instruction. -/
theorem encodes_encode (i : Instr) : Encodes (encode i) i := encodes_of_opcodeMatch (Laws.OpcodeMatch.all i)

/-- The tick is inside every frame that names the timers and the tone signal. -/
theorem State.frame_tick {w : Writes} (s : State) (hdt : w.dt = true) (hst : w.st = true) (htone : w.tone = true) :
    Frame w s s.tick where
  __ := Frame.refl w s
  dt h := absurd hdt (Bool.eq_false_iff.mp h)
  st h := absurd hst (Bool.eq_false_iff.mp h)
  tone h := absurd htone (Bool.eq_false_iff.mp h)

/-- A write of the trace is inside every frame that names the trace. -/
theorem State.frame_setTrace {w : Writes} (s : State) (tr : Trace) (hw : w.trace = true) :
    Frame w s (s.setTrace tr) where
  __ := Frame.refl w s
  trace h := absurd hw (Bool.eq_false_iff.mp h)

/-- Settles O11: the first part is what the tick does to each field; by it, the second is that the opcode decodes to
the instruction, so that the step ends by the tick and a write of the trace. -/
theorem tickEndsEachStep : Obligations.TickEndsEachStep := by
  unfold Obligations.TickEndsEachStep
  refine ⟨fun s => ?_, fun s t i hs hfetch hexec ht => ?_⟩
  · exact ⟨countDown_toNat s.dt, countDown_toNat s.st, s.tick_tone_iff, s.tick_pc, s.frame_tick rfl rfl rfl⟩
  · refine steps_of_exec (encodes_encode i) hexec (ht.trans hs.symm) (fun _ tr => ?_) hs hfetch
    exact ⟨t.tick_pc, countDown_toNat t.dt, countDown_toNat t.st, t.tick_tone_iff,
      (t.frame_tick rfl rfl rfl).trans (t.tick.frame_setTrace tr rfl)⟩

end Sys2Proof.Machine
end

section
/-! Encoding and decoding (30_encoding.md): when each shape of row matches, in terms of an opcode's fields; from that,
each row gives back the opcode that it matched; then the round trip and the opcodes that no row matches. -/

namespace Sys2Proof

/-! ## The fields of an opcode -/

/-- An opcode is its family, X and NN. -/
theorem word_eq_byte (op : Word) : (fieldFamily op ++ fieldX op ++ fieldNN op : Word) = op := by
  have hfx : (fieldFamily op ++ fieldX op : BitVec 8) = op.extractLsb' 8 8 :=
    BitVec.extractLsb'_append_extractLsb'_eq_extractLsb' rfl
  rw [hfx]
  exact BitVec.extractLsb'_append_extractLsb' (w := 8)

/-- An opcode is its family and NNN. -/
theorem word_eq_addr (op : Word) : (fieldFamily op ++ fieldNNN op : Word) = op :=
  BitVec.extractLsb'_append_extractLsb' (w := 4)

/-- An opcode is its two bytes, in the order in which they lie in memory (20_memory.md R44). -/
theorem opcodeOfBytes_high_low (op : Word) : opcodeOfBytes (opcodeHigh op) (opcodeLow op) = op :=
  BitVec.extractLsb'_append_extractLsb' (w := 8)

@[simp] theorem fieldFamily_byte (f x : Nibble) (nn : Byte) : fieldFamily (f ++ x ++ nn : Word) = f := by
  unfold fieldFamily
  rw [BitVec.extractLsb'_append_eq_of_le (by decide)]
  exact BitVec.extractLsb'_append_eq_left

/-! ## When a row matches -/

/-- A row that fixes the family alone. -/
theorem matchesOpcode_family_iff {r : OpcodeRow} (f : Nibble) (hm : r.mask = 0xF000#16)
    (hp : r.pattern = (f ++ 0#4 ++ 0#4 ++ 0#4 : Word)) (op : Word) :
    r.matchesOpcode op = true ↔ fieldFamily op = f := by
  obtain ⟨f', x, y, n, rfl⟩ := exists_nibbles op
  have hmask : r.mask = (0xF#4 ++ 0#4 ++ 0#4 ++ 0#4 : Word) := hm
  simp only [matchesOpcode_nibbles, hmask, hp, fieldFamily_nibbles, fieldX_nibbles, fieldY_nibbles, fieldN_nibbles,
    Laws.nibble_and_ones, BitVec.and_zero]
  simp

/-- A row that fixes the family and the last digit. -/
theorem matchesOpcode_digit_iff {r : OpcodeRow} (f n : Nibble) (hm : r.mask = 0xF00F#16)
    (hp : r.pattern = (f ++ 0#4 ++ 0#4 ++ n : Word)) (op : Word) :
    r.matchesOpcode op = true ↔ fieldFamily op = f ∧ fieldN op = n := by
  obtain ⟨f', x, y, n', rfl⟩ := exists_nibbles op
  have hmask : r.mask = (0xF#4 ++ 0#4 ++ 0#4 ++ 0xF#4 : Word) := hm
  simp only [matchesOpcode_nibbles, hmask, hp, fieldFamily_nibbles, fieldX_nibbles, fieldY_nibbles, fieldN_nibbles,
    Laws.nibble_and_ones, BitVec.and_zero]
  simp

/-- A row that fixes the family and the last two digits. -/
theorem matchesOpcode_byte_iff {r : OpcodeRow} (f : Nibble) (nn : Byte) (hm : r.mask = 0xF0FF#16)
    (hp : r.pattern = (f ++ 0#4 ++ nn : Word)) (op : Word) :
    r.matchesOpcode op = true ↔ fieldFamily op = f ∧ fieldNN op = nn := by
  have hmask : r.mask = (0xF#4 ++ 0#4 ++ 0xFF#8 : Word) := hm
  have hbyte : fieldNN op &&& 0xFF#8 = fieldNN op := BitVec.and_allOnes
  have hand : op &&& r.mask = (fieldFamily op ++ 0#4 ++ fieldNN op : Word) := by
    rw [← word_eq_byte op, hmask, BitVec.and_append, BitVec.and_append, Laws.nibble_and_ones, BitVec.and_zero]
    simp [hbyte]
  rw [OpcodeRow.matchesOpcode, beq_iff_eq, hand, hp]
  constructor
  · intro h
    exact ⟨by simpa using congrArg fieldFamily h, by simpa using congrArg fieldNN h⟩
  · rintro ⟨rfl, rfl⟩
    rfl

/-- A row that fixes all digits. -/
theorem matchesOpcode_word_iff {r : OpcodeRow} (hm : r.mask = 0xFFFF#16) (op : Word) :
    r.matchesOpcode op = true ↔ op = r.pattern := by
  have hand : op &&& 0xFFFF#16 = op := BitVec.and_allOnes
  rw [OpcodeRow.matchesOpcode, beq_iff_eq, hm, hand]

/-! ## A row gives back its opcode -/

/-- The instruction that the row builds from an opcode it matches is encoded as that opcode. -/
def OpcodeRow.GivesBack (r : OpcodeRow) : Prop := ∀ op, r.matchesOpcode op = true → encode (r.build op) = op

theorem rowNNN_givesBack {p : Word} {g : Addr12 → Instr} (f : Nibble) (hp : p = (f ++ 0#4 ++ 0#4 ++ 0#4 : Word))
    (hg : ∀ a, encode (g a) = (f ++ a : Word)) : (rowNNN p g).GivesBack := by
  intro op h
  obtain rfl := (matchesOpcode_family_iff f rfl hp op).mp h
  exact (hg _).trans (word_eq_addr op)

theorem rowXNN_givesBack {p : Word} {g : Nibble → Byte → Instr} (f : Nibble)
    (hp : p = (f ++ 0#4 ++ 0#4 ++ 0#4 : Word)) (hg : ∀ x nn, encode (g x nn) = (f ++ x ++ nn : Word)) :
    (rowXNN p g).GivesBack := by
  intro op h
  obtain rfl := (matchesOpcode_family_iff f rfl hp op).mp h
  exact (hg _ _).trans (word_eq_byte op)

theorem rowXY_givesBack {p : Word} {g : Nibble → Nibble → Instr} (f n : Nibble)
    (hp : p = (f ++ 0#4 ++ 0#4 ++ n : Word)) (hg : ∀ x y, encode (g x y) = (f ++ x ++ y ++ n : Word)) :
    (rowXY p g).GivesBack := by
  intro op h
  obtain ⟨rfl, rfl⟩ := (matchesOpcode_digit_iff f n rfl hp op).mp h
  exact (hg _ _).trans (word_eq_nibbles op)

theorem rowX_givesBack {p : Word} {g : Nibble → Instr} (f : Nibble) (nn : Byte) (hp : p = (f ++ 0#4 ++ nn : Word))
    (hg : ∀ x, encode (g x) = (f ++ x ++ nn : Word)) : (rowX p g).GivesBack := by
  intro op h
  obtain ⟨rfl, rfl⟩ := (matchesOpcode_byte_iff f nn rfl hp op).mp h
  exact (hg _).trans (word_eq_byte op)

theorem rowWord_givesBack {p : Word} {i : Instr} (hi : encode i = p) :
    (⟨0xFFFF#16, p, fun _ => i⟩ : OpcodeRow).GivesBack := by
  intro op h
  exact hi.trans ((matchesOpcode_word_iff rfl op).mp h).symm

theorem rowDrw_matches_iff {op : Word} :
    (⟨0xF000#16, 0xD000#16, fun op => .drw (fieldX op) (fieldY op) (fieldN op)⟩ : OpcodeRow).matchesOpcode op = true ↔
      fieldFamily op = 0xD#4 :=
  matchesOpcode_family_iff 0xD#4 rfl rfl op

theorem rowDrw_givesBack :
    (⟨0xF000#16, 0xD000#16, fun op => .drw (fieldX op) (fieldY op) (fieldN op)⟩ : OpcodeRow).GivesBack := by
  intro op h
  have hop : encode (.drw (fieldX op) (fieldY op) (fieldN op)) = op := by
    rw [encode, ← rowDrw_matches_iff.mp h]
    exact word_eq_nibbles op
  exact hop

/-- Every row of the opcode map gives back its opcode, row by row of 30_encoding.md R57. -/
theorem opcodeMap_givesBack : ∀ r ∈ opcodeMap, r.GivesBack := by
  simp only [opcodeMap, List.forall_mem_append, List.forall_mem_cons, List.not_mem_nil, false_implies,
    implies_true, and_true]
  refine ⟨⟨⟨?_, ?_⟩, ?_⟩, ?_⟩
  · exact ⟨rowWord_givesBack rfl, rowWord_givesBack rfl, rowNNN_givesBack 0x1#4 rfl fun _ => rfl,
      rowNNN_givesBack 0x2#4 rfl fun _ => rfl, rowXNN_givesBack 0x3#4 rfl fun _ _ => rfl,
      rowXNN_givesBack 0x4#4 rfl fun _ _ => rfl, rowXY_givesBack 0x5#4 0x0#4 rfl fun _ _ => rfl,
      rowXNN_givesBack 0x6#4 rfl fun _ _ => rfl, rowXNN_givesBack 0x7#4 rfl fun _ _ => rfl⟩
  · exact ⟨rowXY_givesBack 0x8#4 0x0#4 rfl fun _ _ => rfl, rowXY_givesBack 0x8#4 0x1#4 rfl fun _ _ => rfl,
      rowXY_givesBack 0x8#4 0x2#4 rfl fun _ _ => rfl, rowXY_givesBack 0x8#4 0x3#4 rfl fun _ _ => rfl,
      rowXY_givesBack 0x8#4 0x4#4 rfl fun _ _ => rfl, rowXY_givesBack 0x8#4 0x5#4 rfl fun _ _ => rfl,
      rowXY_givesBack 0x8#4 0x6#4 rfl fun _ _ => rfl, rowXY_givesBack 0x8#4 0x7#4 rfl fun _ _ => rfl,
      rowXY_givesBack 0x8#4 0xE#4 rfl fun _ _ => rfl, rowXY_givesBack 0x9#4 0x0#4 rfl fun _ _ => rfl⟩
  · exact ⟨rowNNN_givesBack 0xA#4 rfl fun _ => rfl, rowNNN_givesBack 0xB#4 rfl fun _ => rfl,
      rowXNN_givesBack 0xC#4 rfl fun _ _ => rfl, rowDrw_givesBack, rowX_givesBack 0xE#4 0x9E#8 rfl fun _ => rfl,
      rowX_givesBack 0xE#4 0xA1#8 rfl fun _ => rfl⟩
  · exact ⟨rowX_givesBack 0xF#4 0x07#8 rfl fun _ => rfl, rowX_givesBack 0xF#4 0x0A#8 rfl fun _ => rfl,
      rowX_givesBack 0xF#4 0x15#8 rfl fun _ => rfl, rowX_givesBack 0xF#4 0x18#8 rfl fun _ => rfl,
      rowX_givesBack 0xF#4 0x1E#8 rfl fun _ => rfl, rowX_givesBack 0xF#4 0x29#8 rfl fun _ => rfl,
      rowX_givesBack 0xF#4 0x33#8 rfl fun _ => rfl, rowX_givesBack 0xF#4 0x55#8 rfl fun _ => rfl,
      rowX_givesBack 0xF#4 0x65#8 rfl fun _ => rfl⟩

/-! ## The round trip -/

/-- Encoding undoes decoding. -/
theorem encode_of_decode {op : Word} {i : Instr} (h : decode op = .ok i) : encode i = op := by
  unfold decode at h
  cases hfind : opcodeMap.find? (fun r => r.matchesOpcode op) with
  | none => simp [hfind] at h
  | some r =>
    simp only [hfind, Except.ok.injEq] at h
    obtain rfl := h
    have hmatch := List.find?_some (p := fun r : OpcodeRow => r.matchesOpcode op) hfind
    exact opcodeMap_givesBack r (List.mem_of_find?_eq_some hfind) op hmatch

/-- Decoding undoes encoding. -/
theorem decode_encode (i : Instr) : decode (encode i) = .ok i := (Machine.encodes_encode i).1

theorem encode_injective : Function.Injective encode := fun i j h =>
  Except.ok.inj ((decode_encode i).symm.trans (h ▸ decode_encode j))

/-- Settles O2: an instruction's opcode matches its row, and every row gives back the opcode that it matches. -/
theorem encodeDecodeRoundTrip : Obligations.EncodeDecodeRoundTrip := by
  unfold Obligations.EncodeDecodeRoundTrip
  refine ⟨decode_encode, fun op i => encode_of_decode, fun i rest => ?_⟩
  simp only [encodeBytes, List.cons_append, List.nil_append, decodeBytes, opcodeOfBytes_high_low, decode_encode]

/-! ## The opcodes that no row matches -/

/-- The one error of `decode` is that no row matches. -/
theorem decode_error_iff {op : Word} {e : DecodeError} :
    decode op = .error e ↔ (∀ r ∈ opcodeMap, ¬ r.matchesOpcode op = true) ∧ e = .unrecognizedOpcode op := by
  rw [← List.find?_eq_none, decode]
  split
  · next h => simp [h]
  · next h => simp [h, eq_comm]

/-- Settles O3: two different rows that an opcode matches would clash. -/
theorem opcodeMatchesAtMostOneRow : Obligations.OpcodeMatchesAtMostOneRow := by
  unfold Obligations.OpcodeMatchesAtMostOneRow
  intro op
  have hclash := opcodeMap_pairwise_clash.filter (fun r => r.matchesOpcode op)
  match hrows : opcodeMap.filter (fun r => r.matchesOpcode op) with
  | [] | [_] => simp [hrows]
  | r :: q :: _ =>
    have hr : r ∈ opcodeMap.filter (fun r => r.matchesOpcode op) := by simp [hrows]
    have hq : q ∈ opcodeMap.filter (fun r => r.matchesOpcode op) := by simp [hrows]
    rw [hrows] at hclash
    have hrq : r.Clash q := List.rel_of_pairwise_cons hclash (List.mem_cons_self ..)
    exact (hrq.not_both_match (List.mem_filter.mp hr).2 (List.mem_filter.mp hq).2).elim

theorem rowNNN_matches_iff {p op : Word} {g : Addr12 → Instr} (hp : p = (fieldFamily p ++ 0#4 ++ 0#4 ++ 0#4 : Word)) :
    (rowNNN p g).matchesOpcode op = true ↔ fieldFamily op = fieldFamily p :=
  matchesOpcode_family_iff _ rfl hp op

theorem rowXNN_matches_iff {p op : Word} {g : Nibble → Byte → Instr}
    (hp : p = (fieldFamily p ++ 0#4 ++ 0#4 ++ 0#4 : Word)) :
    (rowXNN p g).matchesOpcode op = true ↔ fieldFamily op = fieldFamily p :=
  matchesOpcode_family_iff _ rfl hp op

theorem rowXY_matches_iff {p op : Word} {g : Nibble → Nibble → Instr}
    (hp : p = (fieldFamily p ++ 0#4 ++ 0#4 ++ fieldN p : Word)) :
    (rowXY p g).matchesOpcode op = true ↔ fieldFamily op = fieldFamily p ∧ fieldN op = fieldN p :=
  matchesOpcode_digit_iff _ _ rfl hp op

theorem rowX_matches_iff {p op : Word} {g : Nibble → Instr} (hp : p = (fieldFamily p ++ 0#4 ++ fieldNN p : Word)) :
    (rowX p g).matchesOpcode op = true ↔ fieldFamily op = fieldFamily p ∧ fieldNN op = fieldNN p :=
  matchesOpcode_byte_iff _ _ rfl hp op

/-- The last digits of family 8 that have no instruction. -/
theorem family8_digits (n : Nibble) :
    (n ≠ 0x0#4 ∧ n ≠ 0x1#4 ∧ n ≠ 0x2#4 ∧ n ≠ 0x3#4 ∧ n ≠ 0x4#4 ∧ n ≠ 0x5#4 ∧ n ≠ 0x6#4 ∧ n ≠ 0x7#4 ∧ n ≠ 0xE#4) ↔
      n ∈ [0x8#4, 0x9#4, 0xA#4, 0xB#4, 0xC#4, 0xD#4, 0xF#4] := by
  revert n
  decide

theorem nibble_mem_all (f : Nibble) :
    f ∈ [0x0#4, 0x1#4, 0x2#4, 0x3#4, 0x4#4, 0x5#4, 0x6#4, 0x7#4, 0x8#4, 0x9#4, 0xA#4, 0xB#4, 0xC#4, 0xD#4, 0xE#4,
      0xF#4] := by
  revert f
  decide

/-- Settles O4: no row matches, read row by row as conditions on the family and the last digits, and compared with the
table in each of the 16 families. -/
theorem unrecognizedOpcodesAreThoseListed : Obligations.UnrecognizedOpcodesAreThoseListed := by
  unfold Obligations.UnrecognizedOpcodesAreThoseListed
  intro op
  have hcls : op = 0x00E0#16 → fieldFamily op = 0x0#4 := by rintro rfl; rfl
  have hret : op = 0x00EE#16 → fieldFamily op = 0x0#4 := by rintro rfl; rfl
  have hfamily := nibble_mem_all (fieldFamily op)
  rw [decode_error_iff, and_iff_left rfl, ← family8_digits]
  simp (disch := decide) only [opcodeMap, List.forall_mem_append, List.forall_mem_cons, rowNNN_matches_iff,
    rowXNN_matches_iff, rowXY_matches_iff, rowX_matches_iff, matchesOpcode_word_iff, rowDrw_matches_iff]
  generalize fieldFamily op = f, fieldN op = n, fieldNN op = nn at *
  simp only [List.mem_cons, List.not_mem_nil, or_false] at hfamily
  rcases hfamily with rfl | rfl | rfl | rfl | rfl | rfl | rfl | rfl | rfl | rfl | rfl | rfl | rfl | rfl | rfl | rfl
  all_goals simp_all [fieldFamily, fieldN, fieldNN]

/-- Settles O1: a search in the opcode map for each word. -/
theorem sampleWordsDecode : Obligations.SampleWordsDecode := by
  unfold Obligations.SampleWordsDecode
  decide

end Sys2Proof
end

section
/-! Memory (20_memory.md), Init (70_reset_and_hazards.md) and the fetch. -/

namespace Sys2Proof.Machine

/-! ## Memory -/

/-- No byte at or above 0x1000 is listed. -/
theorem Memory.read_above {lo a : Nat} (m : Memory) (hm : Memory.wfFrom lo m = true) (h : 4096 ≤ a) :
    m.read a = Memory.background a := by
  induction m generalizing lo with
  | nil => rfl
  | cons c rest ih =>
    obtain ⟨b, w⟩ := c
    simp only [Memory.wfFrom, Bool.and_eq_true, decide_eq_true_eq] at hm
    obtain ⟨⟨⟨-, hb⟩, -⟩, hrest⟩ := hm
    have hne : a ≠ b := by omega
    simp only [Memory.read, hne, if_false]
    exact ih hrest

/-- Settles O6: the laws of a single write. -/
theorem writeChangesExactlyOneByte : Obligations.WriteChangesExactlyOneByte := by
  unfold Obligations.WriteChangesExactlyOneByte
  intro m a v hm ha
  exact ⟨Memory.write_wf m v ha hm, fun b => Memory.read_write m a b v hm⟩

/-- Settles O7: canonical memories that agree below 0x1000 agree everywhere, and so are the same list. -/
theorem canonicalMemoriesAreEqual : Obligations.CanonicalMemoriesAreEqual := by
  unfold Obligations.CanonicalMemoriesAreEqual
  intro m m' hm hm' h
  refine Memory.ext hm hm' fun a => ?_
  rcases Nat.lt_or_ge a 4096 with ha | ha
  · exact h a ha
  · rw [Memory.read_above m hm ha, Memory.read_above m' hm' ha]

/-! ## Init -/

theorem State.init_eq {image : List Byte} (h : image.length ≤ 3584) :
    State.init image = some (State.reset.setMem (State.reset.mem.writeBytes 0x200 image)) := by
  rw [State.init, if_pos h]

theorem State.init_too_long {image : List Byte} (h : 3584 < image.length) : State.init image = none := by
  rw [State.init, if_neg (by omega)]

/-- What memory holds after reset: the glyph table, and zeros (20_memory.md R38, R39). -/
theorem State.reset_mem_read (a : Nat) : State.reset.mem.read a = if a < 80 then Config.glyphRom a else 0#8 := rfl

theorem State.reset_v (x : Nibble) : State.reset.v x = 0#8 := by
  simp [State.v, State.reset]

theorem State.reset_cell (j : Nat) : State.reset.cell j = false := by
  simp [State.cell, cellAt, State.reset]

/-- Settles O5: Init is reset but for memory, where the image's block holds the image and everything else is as after
reset. -/
theorem initLeavesResetValues : Obligations.InitLeavesResetValues := by
  unfold Obligations.InitLeavesResetValues
  refine ⟨rfl, fun image => ⟨State.init_too_long, fun hlen => ⟨_, State.init_eq hlen, ?_⟩⟩⟩
  have houtside : ∀ a, a < 0x200 ∨ 0x200 + image.length ≤ a →
      (State.reset.mem.writeBytes 0x200 image).read a = if a < 80 then Config.glyphRom a else 0#8 := fun a ha =>
    (Memory.read_writeBytes_outside _ _ _ _ ha).trans (State.reset_mem_read a)
  refine ⟨State.reset_v, rfl, rfl, rfl, ?_, rfl, rfl, State.reset_cell, ?_, ?_, ?_, ?_, ?_, rfl, rfl, rfl, rfl, rfl⟩
  · intro k
    simp [State.reset]
  · intro k
    simp [State.reset]
  · intro a ha
    exact (houtside a (.inl (by omega))).trans (if_pos ha)
  · intro a ha hlt
    exact (houtside a (.inl hlt)).trans (if_neg (by omega))
  · intro k hk
    exact Memory.read_writeBytes_inside _ 0x200 k image hk (by omega) State.reset_mem_wf
  · intro a ha
    exact (houtside a (.inr ha)).trans (if_neg (by omega))

/-! ## Fetch, and the faults of fetching and decoding -/

/-- Settles O8: the two bytes at PC make the opcode as its high and its low byte. -/
theorem fetchIsBigEndian : Obligations.FetchIsBigEndian := by
  unfold Obligations.FetchIsBigEndian
  intro s
  exact ⟨s.fetch_none, fun h => ⟨_, s.fetch_eq h, opcodeOfBytes_toNat _ _⟩⟩

/-- There is no opcode exactly when PC is above 0xFFE (20_memory.md R47). -/
theorem State.fetch_eq_none_iff (s : State) : s.fetch = none ↔ 0xFFE < s.pc.toNat := by
  refine ⟨fun h => ?_, s.fetch_none⟩
  by_contra hpc
  rw [s.fetch_eq (by omega)] at h
  cases h

/-- Settles O12: each of the two faults is one `raise`, after both signals are set to false. -/
theorem fetchAndDecodeFaultsAreTaken : Obligations.FetchAndDecodeFaultsAreTaken := by
  unfold Obligations.FetchAndDecodeFaultsAreTaken
  intro s hs
  exact ⟨fun hpc => step_of_fetch_none hs (s.fetch_none hpc), fun op => step_of_decode_error hs⟩

/-- Settles O17: the reset state has no record and no tone. -/
theorem resetMeetsInvariant : Obligations.ResetMeetsInvariant := by
  unfold Obligations.ResetMeetsInvariant
  exact ⟨State.reset_mem_wf, nofun, nofun⟩

end Sys2Proof.Machine
end

section
/-! Faults that an instruction raises (60_exceptions.md R107), and control transfer with its two (41_control.md). -/

namespace Sys2Proof.Machine

/-- Taking a fault is inside every frame that names the record and the signals. -/
theorem State.frame_raise {w : Writes} (s : State) (kind : FaultKind) (opcode : Option Word) (info : Option Nat)
    (hfault : w.fault = true) (hredraw : w.redraw = true) (htone : w.tone = true) :
    Frame w s (s.raise kind opcode info) where
  __ := Frame.refl w s
  fault h := absurd hfault (Bool.eq_false_iff.mp h)
  redraw h := absurd hredraw (Bool.eq_false_iff.mp h)
  tone h := absurd htone (Bool.eq_false_iff.mp h)

/-- An instruction that ends in `raiseIn` raises that fault. -/
theorem raises_of_exec {i : Instr} {s : State} {kind : FaultKind} {info : Option Nat}
    (h : exec i s = raiseIn s i kind info) : Raises i s kind info :=
  ⟨_, h, rfl, rfl, rfl, rfl, s.frame_raise _ _ _ rfl rfl rfl⟩

/-! ## The framebuffer cleared -/

/-- A write of the framebuffer is inside every frame that names it. -/
theorem State.frame_setFb {w : Writes} (s : State) (fb : Vector (BitVec 64) 32) (hw : w.fb = true) :
    Frame w s (s.setFb fb) where
  __ := Frame.refl w s
  fb h := absurd hw (Bool.eq_false_iff.mp h)

/-- The meaning of 00E0 (40_display.md R66). -/
theorem exec_cls (s : State) : exec .cls s = .next (s.setFb (Vector.replicate 32 0#64)).advance := rfl

theorem cellAt_zero (j : Nat) : cellAt (Vector.replicate 32 0#64) j = false := by
  simp [cellAt]

/-- Settles O24: every row of the new framebuffer is zero. -/
theorem clearScreenResult : Obligations.ClearScreenResult := by
  unfold Obligations.ClearScreenResult
  refine ⟨encodes_of_encode_eq Laws.OpcodeMatch.cls rfl, fun s => ?_⟩
  exact ⟨_, exec_cls s, ⟨cellAt_zero, rfl⟩, (s.frame_setFb _ rfl).trans (State.frame_advance _ _)⟩

/-! ## Call and return -/

/-- The meaning of 00EE with a call on the stack (41_control.md R69). -/
theorem exec_ret {s : State} {k : Fin 16} (h : s.sp.val = k.val + 1) :
    exec .ret s = .next ({ s with sp := ⟨k.val, by omega⟩ }.setPc s.stack[k]).advance := by
  simp only [exec, execRet, s.pop_eq k h]

/-- The meaning of 00EE with an empty stack (R69). -/
theorem exec_ret_empty {s : State} (h : s.sp.val = 0) : exec .ret s = raiseIn s .ret .stackUnderflow none := by
  simp only [exec, execRet, s.pop_empty h]

/-- The meaning of 2NNN with room on the stack (R71). -/
theorem exec_call (nnn : Addr12) {s : State} {k : Fin 16} (h : s.sp.val = k.val) :
    exec (.call nnn) s =
      .next ({ s with stack := s.stack.set k.val s.pc k.isLt, sp := ⟨k.val + 1, by omega⟩ }.setPc (zextAddr nnn)) := by
  simp only [exec, execCall, s.push_eq s.pc k h]

/-- The meaning of 2NNN with a full stack (R71). -/
theorem exec_call_full (nnn : Addr12) {s : State} (h : s.sp.val = 16) :
    exec (.call nnn) s = raiseIn s (.call nnn) .stackOverflow none := by
  simp only [exec, execCall, s.push_full s.pc h]

/-- Settles O27: the entry below the stack pointer is read, and only the pointer and PC are written. -/
theorem returnResult : Obligations.ReturnResult := by
  unfold Obligations.ReturnResult
  refine ⟨encodes_of_encode_eq Laws.OpcodeMatch.ret rfl, fun s k hk => ⟨_, exec_ret hk, ⟨rfl, rfl⟩, ?_⟩⟩
  exact { Frame.refl { sp := true } s with sp := fun h => absurd h (by simp) }

/-- Settles O29: the one stack entry written is the one at the stack pointer. -/
theorem callResult : Obligations.CallResult := by
  unfold Obligations.CallResult
  intro nnn
  refine ⟨encodes_of_encode_eq (Laws.OpcodeMatch.call nnn) rfl, fun s k hk => ⟨_, exec_call nnn hk, ?_, ?_⟩⟩
  · exact ⟨Vector.getElem_set_self .., rfl, zextAddr_toNat nnn⟩
  · exact { Frame.refl { stack := [k], sp := true } s with
      stack := fun j hj => Vector.getElem_set_ne k.isLt j.isLt fun h => hj (List.mem_singleton.mpr (Fin.ext h.symm))
      sp := fun h => absurd h (by simp) }

/-- Settles O30: the push on a full stack and the pop of an empty one fail, and the instruction raises its fault. -/
theorem stackFaultsAreTaken : Obligations.StackFaultsAreTaken := by
  unfold Obligations.StackFaultsAreTaken
  exact ⟨fun nnn s h => raises_of_exec (exec_call_full nnn h), fun s h => raises_of_exec (exec_ret_empty h)⟩

/-- Settles O31: the call leaves its own PC in the entry that the return then reads. -/
theorem returnUndoesCall : Obligations.ReturnUndoesCall := by
  unfold Obligations.ReturnUndoesCall
  intro nnn s h
  obtain ⟨t, hcall, ⟨hentry, hsp, -⟩, -⟩ := (callResult nnn).2 s ⟨s.sp.val, h⟩ rfl
  obtain ⟨u, hret, ⟨husp, hupc⟩, -⟩ := returnResult.2 t ⟨s.sp.val, h⟩ hsp
  exact ⟨t, u, hcall, hret, by rw [hupc, hentry], Fin.ext husp⟩

/-- The meaning of BNNN (41_control.md R72). -/
theorem exec_jpV0 (nnn : Addr12) (s : State) :
    exec (.jpV0 nnn) s = .next (s.setPc (zextByte (s.v 0#4) + zextAddr nnn)).advance := rfl

/-- Settles O32: the sum of a byte, a 12-bit address and 2 fits 16 bits. -/
theorem jumpV0Result : Obligations.JumpV0Result := by
  unfold Obligations.JumpV0Result
  intro nnn
  refine ⟨encodes_of_encode_eq (Laws.OpcodeMatch.jpV0 nnn) rfl, fun s => ⟨_, exec_jpV0 nnn s, ?_, ?_⟩⟩
  · have hv : (s.v 0#4).toNat < 256 := (s.v 0#4).isLt
    have hn : nnn.toNat < 4096 := nnn.isLt
    simp only [State.advance_pc, State.setPc_pc, BitVec.toNat_add, zextByte_toNat, zextAddr_toNat, BitVec.toNat_ofNat]
    omega
  · exact (s.frame_setPc _ _).trans (State.frame_advance _ _)

end Sys2Proof.Machine
end

section
/-! Skips on registers and on keys (42_skip.md). -/

namespace Sys2Proof.Machine

/-- The meaning of 5XY0 (42_skip.md R76). -/
theorem exec_seReg (x y : Nibble) (s : State) : exec (.seReg x y) s = .next (s.skipIf (s.v x == s.v y)) := rfl

/-- The meaning of 9XY0 (42_skip.md R77): the condition of 5XY0, negated. -/
theorem exec_sneReg (x y : Nibble) (s : State) : exec (.sneReg x y) s = .next (s.skipIf !(s.v x == s.v y)) := rfl

/-- Settles O34: each row decides its opcode, and the two skips share one condition, which 9XY0 negates. -/
theorem skipOnRegisterResult : Obligations.SkipOnRegisterResult := by
  unfold Obligations.SkipOnRegisterResult
  intro x y
  refine ⟨encodes_of_encode_eq (Laws.OpcodeMatch.seReg x y) rfl, encodes_of_encode_eq (Laws.OpcodeMatch.sneReg x y) rfl,
    fun s => ⟨?_, ?_⟩⟩
  · simpa only [beq_iff_eq] using runs_of_exec_skipIf (exec_seReg x y s)
  · simpa only [beq_iff_eq] using runs_of_exec_skipIf_not (exec_sneReg x y s)

/-- The meaning of EX9E for a key number (42_skip.md R78). -/
theorem exec_skp {x : Nibble} {s : State} {k : Fin 16} (h : (s.v x).toNat = k.val) :
    exec (.skp x) s = .next (s.skipIf s.keys[k]) := by
  simp only [exec, execSkp, s.key_eq _ k h]

/-- The meaning of EXA1 for a key number (42_skip.md R79). -/
theorem exec_sknp {x : Nibble} {s : State} {k : Fin 16} (h : (s.v x).toNat = k.val) :
    exec (.sknp x) s = .next (s.skipIf !s.keys[k]) := by
  simp only [exec, execSknp, s.key_eq _ k h]

/-- The meaning of EX9E for a number of no key (R78). -/
theorem exec_skp_noKey {x : Nibble} {s : State} (h : 15 < (s.v x).toNat) :
    exec (.skp x) s = raiseIn s (.skp x) .keyIndexOutOfRange (some (s.v x).toNat) := by
  simp only [exec, execSkp, s.key_none _ h]

/-- The meaning of EXA1 for a number of no key (R79). -/
theorem exec_sknp_noKey {x : Nibble} {s : State} (h : 15 < (s.v x).toNat) :
    exec (.sknp x) s = raiseIn s (.sknp x) .keyIndexOutOfRange (some (s.v x).toNat) := by
  simp only [exec, execSknp, s.key_none _ h]

/-- Settles O35: `V[x]` numbers a key, whose cell is the condition, or it numbers none. -/
theorem skipOnKeyResult : Obligations.SkipOnKeyResult := by
  unfold Obligations.SkipOnKeyResult
  intro x
  refine ⟨encodes_of_encode_eq (Laws.OpcodeMatch.skp x) rfl, encodes_of_encode_eq (Laws.OpcodeMatch.sknp x) rfl,
    fun s => ⟨fun k hk => ⟨?_, ?_⟩, fun h => ⟨?_, ?_⟩⟩⟩
  · exact runs_of_exec_skipIf (exec_skp hk)
  · exact runs_of_exec_skipIf_not (exec_sknp hk)
  · exact raises_of_exec (exec_skp_noKey h)
  · exact raises_of_exec (exec_sknp_noKey h)

end Sys2Proof.Machine
end

section
/-! Arithmetic with a flag, and the free draw (43_alu.md). -/

namespace Sys2Proof.Machine

/-- A write of VF is inside every frame that names it. -/
theorem State.frame_setFlag {w : Writes} (s : State) (c : Bool) (hw : 15#4 ∈ w.regs) : Frame w s (s.setFlag c) :=
  s.frame_setV _ hw

/-- An instruction that writes its result and then its flag: VF holds the flag whatever X is (43_alu.md R81). -/
theorem runs_of_exec_setV_setFlag {i : Instr} {s : State} {x : Nibble} {b : Byte} {c : Bool}
    (h : exec i s = .next ((s.setV x b).setFlag c).advance) :
    Runs i s { regs := [x, 15#4] }
      (fun t => (x ≠ 15#4 → t.v x = b) ∧ t.v 15#4 = flagByte c ∧ t.pc = s.pc + 2#16) := by
  refine ⟨_, h, ⟨fun hx => ?_, State.v_setV_same .., rfl⟩, ?_⟩
  · exact (State.v_setV_other _ _ hx).trans (s.v_setV_same x b)
  · exact ((s.frame_setV b (by simp)).trans (State.frame_setFlag _ c (by simp))).trans (State.frame_advance _ _)

/-- An instruction that writes its flag and then a result computed from `V[X]`, read again: when X is 15 the result is
computed from the flag (43_alu.md R81). -/
theorem runs_of_exec_setFlag_setV {i : Instr} {s : State} {x : Nibble} {c : Bool} {f : Byte → Byte}
    (h : exec i s = .next ((s.setFlag c).setV x (f ((s.setFlag c).v x))).advance) :
    Runs i s { regs := [x, 15#4] }
      (fun t => (x ≠ 15#4 → t.v x = f (s.v x) ∧ t.v 15#4 = flagByte c) ∧ (x = 15#4 → t.v 15#4 = f (flagByte c)) ∧
        t.pc = s.pc + 2#16) := by
  refine ⟨_, h, ⟨fun hx => ⟨?_, ?_⟩, ?_, rfl⟩, ?_⟩
  · rw [State.v_advance, State.v_setV_same, State.setFlag, State.v_setV_other _ _ hx]
  · exact (State.v_setV_other _ _ hx.symm).trans (s.v_setV_same _ _)
  · rintro rfl
    rw [State.v_advance, State.v_setV_same, State.setFlag, State.v_setV_same]
  · exact ((s.frame_setFlag c (by simp)).trans (State.frame_setV _ _ (by simp))).trans (State.frame_advance _ _)

theorem flagByte_decide (p : Prop) [Decidable p] : flagByte (decide p) = if p then 1#8 else 0#8 := by
  simp [flagByte]

theorem flagByte_not_decide (p : Prop) [Decidable p] : flagByte (!decide p) = if p then 0#8 else 1#8 := by
  by_cases h : p <;> simp [flagByte, h]

/-- A difference of bytes is the difference modulo 256 (43_alu.md R80). -/
theorem byte_sub_toNat (a b : Byte) : (a - b).toNat = (256 + a.toNat - b.toNat) % 256 := by
  have hb : b.toNat < 256 := b.isLt
  rw [BitVec.toNat_sub]
  congr 1
  omega

/-- The meaning of 8XY4 (43_alu.md R88). -/
theorem exec_addReg (x y : Nibble) (s : State) : exec (.addReg x y) s =
    .next ((s.setV x (s.v x + s.v y)).setFlag (carryOut (s.v x) (s.v y))).advance := rfl

/-- The meaning of 8XY5 (43_alu.md R89). -/
theorem exec_subReg (x y : Nibble) (s : State) : exec (.subReg x y) s =
    .next ((s.setV x (s.v x - s.v y)).setFlag (notBorrow (s.v x) (s.v y))).advance := rfl

/-- The meaning of 8XY7 (43_alu.md R91). -/
theorem exec_subnReg (x y : Nibble) (s : State) : exec (.subnReg x y) s =
    .next ((s.setV x (s.v y - s.v x)).setFlag (notBorrow (s.v y) (s.v x))).advance := rfl

/-- The meaning of 8XY6 (43_alu.md R90). -/
theorem exec_shr (x y : Nibble) (s : State) : exec (.shr x y) s =
    .next ((s.setFlag (lowBit (s.v x))).setV x ((s.setFlag (lowBit (s.v x))).v x >>> 1)).advance := rfl

/-- The meaning of 8XYE (43_alu.md R92). -/
theorem exec_shl (x y : Nibble) (s : State) : exec (.shl x y) s =
    .next ((s.setFlag (highBit (s.v x))).setV x ((s.setFlag (highBit (s.v x))).v x <<< 1)).advance := rfl

/-- Settles O39: the flag is written last, so VF is the carry for X = 15 too. -/
theorem addRegisterResult : Obligations.AddRegisterResult := by
  unfold Obligations.AddRegisterResult
  intro x y
  refine ⟨encodes_of_encode_eq (Laws.OpcodeMatch.addReg x y) rfl, fun s => ?_⟩
  refine (runs_of_exec_setV_setFlag (exec_addReg x y s)).imp fun t ⟨hv, hflag, hpc⟩ => ⟨fun hx => ?_, ?_, hpc⟩
  · rw [hv hx, BitVec.toNat_add]
  · rw [hflag, carryOut, flagByte_decide]

/-- Settles O40: the flag is written last, so VF is the not-borrow for X = 15 too. -/
theorem subtractResult : Obligations.SubtractResult := by
  unfold Obligations.SubtractResult
  intro x y
  refine ⟨encodes_of_encode_eq (Laws.OpcodeMatch.subReg x y) rfl,
    encodes_of_encode_eq (Laws.OpcodeMatch.subnReg x y) rfl, fun s => ⟨?_, ?_⟩⟩
  · refine (runs_of_exec_setV_setFlag (exec_subReg x y s)).imp fun t ⟨hv, hflag, hpc⟩ => ⟨fun hx => ?_, ?_, hpc⟩
    · rw [hv hx, byte_sub_toNat]
    · rw [hflag, notBorrow, flagByte_not_decide]
  · refine (runs_of_exec_setV_setFlag (exec_subnReg x y s)).imp fun t ⟨hv, hflag, hpc⟩ => ⟨fun hx => ?_, ?_, hpc⟩
    · rw [hv hx, byte_sub_toNat]
    · rw [hflag, notBorrow, flagByte_not_decide]

/-- The flag of a right shift is the remainder of its division. -/
theorem flagByte_lowBit_toNat (b : Byte) : (flagByte (lowBit b)).toNat = b.toNat % 2 := by
  revert b
  decide

/-- The flag of a left shift is the quotient by 128. -/
theorem flagByte_highBit_toNat (b : Byte) : (flagByte (highBit b)).toNat = b.toNat / 128 := by
  revert b
  decide

/-- A flag shifted to the right is gone. -/
theorem flagByte_shiftRight (c : Bool) : flagByte c >>> 1 = 0#8 := by
  cases c <;> rfl

theorem flagByte_highBit_shiftLeft (b : Byte) : flagByte (highBit b) <<< 1 = if 128 ≤ b.toNat then 2#8 else 0#8 := by
  revert b
  decide

/-- Settles O41: the flag is written first, so for X = 15 it is the flag that is shifted. -/
theorem shiftResult : Obligations.ShiftResult := by
  unfold Obligations.ShiftResult
  intro x y
  refine ⟨encodes_of_encode_eq (Laws.OpcodeMatch.shr x y) rfl, encodes_of_encode_eq (Laws.OpcodeMatch.shl x y) rfl,
    fun s => ⟨?_, ?_⟩⟩
  · refine (runs_of_exec_setFlag_setV (f := (· >>> 1)) (exec_shr x y s)).imp
      fun t ⟨hother, hself, hpc⟩ => ⟨fun hx => ?_, fun hx => ?_, hpc⟩
    · obtain ⟨hv, hflag⟩ := hother hx
      exact ⟨by rw [hv, BitVec.toNat_ushiftRight, Nat.shiftRight_eq_div_pow, Nat.pow_one],
        by rw [hflag, flagByte_lowBit_toNat]⟩
    · rw [hself hx, flagByte_shiftRight]
  · refine (runs_of_exec_setFlag_setV (f := (· <<< 1)) (exec_shl x y s)).imp
      fun t ⟨hother, hself, hpc⟩ => ⟨fun hx => ?_, fun hx => ?_, hpc⟩
    · obtain ⟨hv, hflag⟩ := hother hx
      exact ⟨by rw [hv, BitVec.toNat_shiftLeft, Nat.shiftLeft_eq, Nat.pow_one],
        by rw [hflag, flagByte_highBit_toNat]⟩
    · rw [hself hx, flagByte_highBit_shiftLeft]

/-- The meaning of CXNN (43_alu.md R93). -/
theorem exec_rnd (x : Nibble) (nn : Byte) (s : State) :
    exec (.rnd x nn) s = .next (s.nextDraw.setV x (Config.randomByte s.draws &&& nn)).advance := rfl

/-- Counting a draw is inside every frame that names the count. -/
theorem State.frame_nextDraw {w : Writes} (s : State) (hw : w.draws = true) : Frame w s s.nextDraw where
  __ := Frame.refl w s
  draws h := absurd hw (Bool.eq_false_iff.mp h)

/-- Settles O42: the byte drawn is the free one of the count before, which stays unknown. -/
theorem randomResult : Obligations.RandomResult := by
  unfold Obligations.RandomResult
  intro x nn
  refine ⟨encodes_of_encode_eq (Laws.OpcodeMatch.rnd x nn) rfl, fun s => ⟨_, exec_rnd x nn s, ?_, ?_⟩⟩
  · have hv := s.nextDraw.v_setV_same x (Config.randomByte s.draws &&& nn)
    refine ⟨hv, ?_, rfl, rfl⟩
    rintro rfl
    exact hv.trans BitVec.and_zero
  · exact ((s.frame_nextDraw rfl).trans (State.frame_setV _ _ (by simp))).trans (State.frame_advance _ _)

end Sys2Proof.Machine
end

section
/-! Blocks of memory (44_index_memory.md): the store that FX33 and FX55 share, the load of FX65, and their faults. -/

namespace Sys2Proof.Machine

/-! ## Storing a block -/

/-- A block store in memory writes its bytes at `I`. -/
theorem storeBlock_inRange (i : Instr) {bytes : List Byte} {s : State} (h : s.ireg.toNat + bytes.length ≤ 4096) :
    storeBlock i bytes s = .next (s.setMem (s.mem.writeBytes s.ireg.toNat bytes)).advance := by
  simp only [storeBlock, Memory.writeBlock_eq, State.dataBase, h, or_true, if_true]

/-- A block store that passes 0xFFF faults (20_memory.md R43). -/
theorem storeBlock_outOfRange (i : Instr) {bytes : List Byte} {s : State} (hlen : bytes.length ≠ 0)
    (h : 4096 < s.ireg.toNat + bytes.length) :
    storeBlock i bytes s = raiseIn s i .memoryOutOfRange (some (max s.ireg.toNat 4096)) := by
  have hout : ¬ (bytes.length = 0 ∨ s.ireg.toNat + bytes.length ≤ 4096) := by omega
  simp only [storeBlock, Memory.writeBlock_eq, State.dataBase, hout, if_false]

/-- A block of bytes written to memory is inside every frame that names its addresses. -/
theorem State.frame_writeBytes {w : Writes} (s : State) (base : Nat) (bytes : List Byte)
    (hw : List.range' base bytes.length ⊆ w.mem) : Frame w s (s.setMem (s.mem.writeBytes base bytes)) where
  __ := Frame.refl w s
  mem a ha := Memory.read_writeBytes_outside _ _ _ _ (by
    have hnot : ¬ (base ≤ a ∧ a < base + bytes.length) := fun h => ha (hw (List.mem_range'_1.mpr h))
    omega)

/-- An instruction that stores a block in memory. -/
theorem runs_of_storeBlock {i : Instr} {bytes : List Byte} {s : State} (hexec : exec i s = storeBlock i bytes s)
    (h : s.ireg.toNat + bytes.length ≤ 4096) :
    Runs i s { mem := List.range' s.ireg.toNat bytes.length }
      (fun t => t.mem = s.mem.writeBytes s.ireg.toNat bytes ∧ t.pc = s.pc + 2#16) :=
  ⟨_, hexec.trans (storeBlock_inRange i h), ⟨rfl, rfl⟩,
    (s.frame_writeBytes _ bytes (List.Subset.refl _)).trans (State.frame_advance _ _)⟩

/-- The meaning of FX33 (44_index_memory.md R97). -/
theorem exec_ldB (x : Nibble) (s : State) : exec (.ldB x) s = storeBlock (.ldB x) (bcdDigits (s.v x)) s := rfl

/-- The meaning of FX55 (44_index_memory.md R98). -/
theorem exec_ldMemVx (x : Nibble) (s : State) : exec (.ldMemVx x) s = storeBlock (.ldMemVx x) (s.vsUpTo x) s := rfl

/-- Settles O46: the three digits are the block, each below 10 and so a byte. -/
theorem storeBcdResult : Obligations.StoreBcdResult := by
  unfold Obligations.StoreBcdResult
  intro x
  refine ⟨encodes_of_encode_eq (Laws.OpcodeMatch.ldB x) rfl, fun s hwf hrange => ?_⟩
  have hlen : (bcdDigits (s.v x)).length = 3 := rfl
  have hv : (s.v x).toNat < 256 := (s.v x).isLt
  refine (runs_of_storeBlock (exec_ldB x s) (by omega)).imp fun t ⟨hmem, hpc⟩ => ?_
  have hread (k : Nat) (hk : k < 3) : t.mem.read (s.ireg.toNat + k) = (bcdDigits (s.v x))[k] := by
    rw [hmem]
    exact Memory.read_writeBytes_inside _ _ k (bcdDigits (s.v x)) hk (by omega) hwf
  refine ⟨?_, ?_, ?_, hpc⟩
  · rw [← Nat.add_zero s.ireg.toNat, hread 0 (by decide)]
    exact Nat.mod_eq_of_lt (show (s.v x).toNat / 100 < 256 by omega)
  · rw [hread 1 (by decide)]
    exact Nat.mod_eq_of_lt (show (s.v x).toNat / 10 % 10 < 256 by omega)
  · rw [hread 2 (by decide)]
    exact Nat.mod_eq_of_lt (show (s.v x).toNat % 10 < 256 by omega)

/-- Settles O47: the block is the registers up to `V[x]`, in order. -/
theorem storeRegistersResult : Obligations.StoreRegistersResult := by
  unfold Obligations.StoreRegistersResult
  intro x
  refine ⟨encodes_of_encode_eq (Laws.OpcodeMatch.ldMemVx x) rfl, fun s hwf hrange => ?_⟩
  have hlen := s.vsUpTo_length x
  have hruns := runs_of_storeBlock (exec_ldMemVx x s) (by omega)
  rw [hlen] at hruns
  refine hruns.imp fun t ⟨hmem, hpc⟩ => ⟨fun k hk => ?_, hpc⟩
  rw [hmem, Memory.read_writeBytes_inside _ _ k.toNat _ (by omega) (by omega) hwf, State.vsUpTo_getElem,
    BitVec.ofNat_toNat, BitVec.setWidth_eq]

/-- Settles O9: by FX55's result, the bytes at `I + k` and `I + k + 1` are `V[k]` and `V[k + 1]`. -/
theorem storedBytesAreFetched : Obligations.StoredBytesAreFetched := by
  unfold Obligations.StoredBytesAreFetched
  intro x s k hwf hrange hk
  obtain ⟨t, hexec, ⟨hread, -⟩, -⟩ := (storeRegistersResult x).2 s hwf hrange
  have hx : x.toNat < 16 := x.isLt
  have hreg (j : Nat) (hj : j ≤ x.toNat) : t.mem.read (s.ireg.toNat + j) = s.v (BitVec.ofNat 4 j) := by
    have hj' : (BitVec.ofNat 4 j).toNat = j := Nat.mod_eq_of_lt (show j < 16 by omega)
    simpa only [hj'] using hread (BitVec.ofNat 4 j) (by omega)
  have hpc : (BitVec.ofNat 16 (s.ireg.toNat + k)).toNat = s.ireg.toNat + k :=
    Nat.mod_eq_of_lt (show s.ireg.toNat + k < 65536 by omega)
  refine ⟨t, hexec, ?_⟩
  rw [State.fetch_eq _ (by rw [State.setPc_pc, hpc]; omega), State.setPc_pc, hpc, State.setPc_mem, hreg k (by omega),
    Nat.add_assoc, hreg (k + 1) (by omega)]

/-! ## Loading a block -/

/-- The meaning of FX65 in memory (44_index_memory.md R99). -/
theorem exec_ldVxMem {x : Nibble} {s : State} (h : s.ireg.toNat + (x.toNat + 1) ≤ 4096) :
    exec (.ldVxMem x) s =
      .next (s.setVs 0 ((List.range (x.toNat + 1)).map (fun k => s.mem.read (s.ireg.toNat + k)))).advance := by
  simp only [exec, execLdVxMem, Memory.readBlock_eq, State.dataBase, h, or_true, if_true]

/-- The meaning of FX65 where its range passes 0xFFF (R99, 20_memory.md R43). -/
theorem exec_ldVxMem_outOfRange {x : Nibble} {s : State} (h : 4096 < s.ireg.toNat + (x.toNat + 1)) :
    exec (.ldVxMem x) s = raiseIn s (.ldVxMem x) .memoryOutOfRange (some (max s.ireg.toNat 4096)) := by
  have hout : ¬ (x.toNat + 1 = 0 ∨ s.ireg.toNat + (x.toNat + 1) ≤ 4096) := by omega
  simp only [exec, execLdVxMem, Memory.readBlock_eq, State.dataBase, hout, if_false]

/-- A write of registers alone is inside every frame that names the ones that change. -/
theorem State.frame_regs {w : Writes} {s : State} {regs : Vector Byte 16}
    (h : ∀ y, y ∉ w.regs → ({ s with regs := regs } : State).v y = s.v y) : Frame w s { s with regs := regs } where
  __ := Frame.refl w s
  regs := h

/-- A block of bytes written to the registers from `V[0]` on is inside every frame that names them. -/
theorem State.frame_setVs {w : Writes} (s : State) {bytes : List Byte} (hlen : bytes.length ≤ 16)
    (hw : (List.range bytes.length).map (BitVec.ofNat 4) ⊆ w.regs) : Frame w s (s.setVs 0 bytes) := by
  rw [State.setVs_eq]
  refine State.frame_regs fun y hy => ?_
  have hlow : ¬ y.toNat < bytes.length := fun h =>
    hy (hw (List.mem_map.mpr ⟨y.toNat, List.mem_range.mpr h, by simp⟩))
  rw [← State.setVs_eq, State.v_setVs _ _ _ (by omega), dif_neg (by omega)]

/-- Settles O48: the bytes of the block are written to `V[0]` to `V[x]`. -/
theorem loadRegistersResult : Obligations.LoadRegistersResult := by
  unfold Obligations.LoadRegistersResult
  intro x
  refine ⟨encodes_of_encode_eq (Laws.OpcodeMatch.ldVxMem x) rfl, fun s hrange => ?_⟩
  have hx : x.toNat < 16 := x.isLt
  refine ⟨_, exec_ldVxMem (by omega), ⟨fun k hk => ?_, ?_⟩, (State.frame_setVs _ ?_ ?_).trans (State.frame_advance _ _)⟩
  · rw [State.v_advance, State.v_setVs _ _ _ (by simp; omega), dif_pos (by simp; omega)]
    simp
  · rw [State.advance_pc, State.setVs_eq]
  · simp; omega
  · simp

/-- Settles O50: the store leaves `V[k]` at `I + k`, with `I` as before, and the load reads it back. -/
theorem loadAfterStoreRestoresRegisters : Obligations.LoadAfterStoreRestoresRegisters := by
  unfold Obligations.LoadAfterStoreRestoresRegisters
  intro x s regs hwf hrange
  obtain ⟨t, hstore, ⟨hmem, -⟩, hframe⟩ := (storeRegistersResult x).2 s hwf hrange
  have hireg : t.ireg = s.ireg := hframe.ireg rfl
  obtain ⟨u, hload, ⟨hv, -⟩, -⟩ := (loadRegistersResult x).2 { t with regs := regs } (by rw [hireg]; exact hrange)
  refine ⟨t, u, hstore, hload, fun k hk => ?_⟩
  rw [hv k hk, hireg, hmem k hk]

end Sys2Proof.Machine
end

section
/-! Drawing (40_display.md R67): a sprite is a list of different cells to toggle. -/

namespace Sys2Proof.Machine

/-! ## Toggling a list of cells -/

/-- Toggling different cells flips exactly these cells. -/
theorem cellAt_foldl_toggle (c : Canvas) (js : List Nat) (hnodup : js.Nodup) (hlt : ∀ j ∈ js, j < 2048) {k : Nat}
    (hk : k < 2048) : cellAt (js.foldl Canvas.toggle c).fb k = (cellAt c.fb k ^^ decide (k ∈ js)) := by
  induction js generalizing c with
  | nil => simp
  | cons j js ih =>
    obtain ⟨hj, hnodup⟩ := List.nodup_cons.mp hnodup
    rw [List.foldl_cons, ih _ hnodup fun j' h => hlt j' (List.mem_cons_of_mem _ h), Canvas.toggle,
      cellAt_flipCell _ (hlt j List.mem_cons_self) hk]
    by_cases hjk : j = k
    · subst hjk
      simp [hj]
    · simp [hjk, Ne.symm hjk]

/-- Toggling different cells hits when one of them was 1. -/
theorem hit_foldl_toggle (c : Canvas) (js : List Nat) (hnodup : js.Nodup) (hlt : ∀ j ∈ js, j < 2048) :
    (js.foldl Canvas.toggle c).hit = (c.hit || decide (∃ j ∈ js, cellAt c.fb j = true)) := by
  induction js generalizing c with
  | nil => simp
  | cons j js ih =>
    obtain ⟨hj, hnodup⟩ := List.nodup_cons.mp hnodup
    have hother : ∀ k ∈ js, cellAt (c.toggle j).fb k = cellAt c.fb k := fun k hk => by
      have hne : j ≠ k := fun h => hj (h ▸ hk)
      rw [Canvas.toggle, cellAt_flipCell _ (hlt j List.mem_cons_self) (hlt k (List.mem_cons_of_mem _ hk))]
      simp [hne]
    have hex : (∃ k ∈ js, cellAt (c.toggle j).fb k = true) ↔ ∃ k ∈ js, cellAt c.fb k = true :=
      exists_congr fun k => and_congr_right fun hk => by rw [hother k hk]
    have hhit : (c.toggle j).hit = (c.hit || cellAt c.fb j) := rfl
    rw [List.foldl_cons, ih _ hnodup fun j' h => hlt j' (List.mem_cons_of_mem _ h), hhit]
    simp only [hex, List.exists_mem_cons_iff, Bool.or_assoc, Bool.decide_or, Bool.decide_eq_true]

/-! ## The cells of a sprite -/

/-- The cells that the 1 bits of a row fall on, from left to right. -/
def rowCells (x0 y0 r : Nat) (row : Byte) : List Nat :=
  ((List.range 8).filter (fun b => row.getLsbD (7 - b))).map (cellIndex x0 y0 r)

/-- The cells that the 1 bits of a sprite fall on, its rows numbered from `r` on. -/
def spriteCells (x0 y0 : Nat) : Nat → List Byte → List Nat
  | _, [] => []
  | r, row :: rows => rowCells x0 y0 r row ++ spriteCells x0 y0 (r + 1) rows

theorem drawRow_eq_foldl (c : Canvas) (x0 y0 r : Nat) (row : Byte) :
    c.drawRow x0 y0 r row = (rowCells x0 y0 r row).foldl Canvas.toggle c := by
  rw [rowCells, List.foldl_map, List.foldl_filter, Canvas.drawRow]

theorem drawRows_eq_foldl (c : Canvas) (x0 y0 r : Nat) (rows : List Byte) :
    c.drawRows x0 y0 r rows = (spriteCells x0 y0 r rows).foldl Canvas.toggle c := by
  induction rows generalizing c r with
  | nil => rfl
  | cons row rows ih => rw [Canvas.drawRows, ih, drawRow_eq_foldl, spriteCells, List.foldl_append]

theorem cellIndex_lt (x0 y0 r b : Nat) : cellIndex x0 y0 r b < 2048 := Nat.mod_lt _ (by decide)

/-- The cells of different bits differ, as long as there are no more rows than the screen has. -/
theorem cellIndex_inj {x0 y0 r r' b b' : Nat} (hr : r < 32) (hr' : r' < 32) (hb : b < 8) (hb' : b' < 8)
    (h : cellIndex x0 y0 r b = cellIndex x0 y0 r' b') : r = r' ∧ b = b' := by
  unfold cellIndex at h
  omega

theorem mem_rowCells {x0 y0 r j : Nat} {row : Byte} :
    j ∈ rowCells x0 y0 r row ↔ ∃ b, b < 8 ∧ row.getLsbD (7 - b) = true ∧ cellIndex x0 y0 r b = j := by
  simp [rowCells, and_assoc]

theorem mem_spriteCells {x0 y0 r j : Nat} {rows : List Byte} :
    j ∈ spriteCells x0 y0 r rows ↔
      ∃ k b, ∃ h : k < rows.length, b < 8 ∧ rows[k].getLsbD (7 - b) = true ∧ cellIndex x0 y0 (r + k) b = j := by
  induction rows generalizing r with
  | nil => simp [spriteCells]
  | cons row rows ih =>
    rw [spriteCells, List.mem_append, mem_rowCells, ih]
    constructor
    · rintro (⟨b, hb, hbit, hj⟩ | ⟨k, b, hk, hb, hbit, hj⟩)
      · exact ⟨0, b, by simp, hb, hbit, hj⟩
      · exact ⟨k + 1, b, by simpa using hk, hb, hbit, by rw [← hj, Nat.add_assoc, Nat.add_comm 1 k]⟩
    · rintro ⟨k, b, hk, hb, hbit, hj⟩
      cases k with
      | zero => exact .inl ⟨b, hb, hbit, hj⟩
      | succ k =>
        exact .inr ⟨k, b, by simpa using hk, hb, hbit, by rw [← hj, Nat.add_assoc, Nat.add_comm 1 k]⟩

/-- The cells of a sprite are those of the statements' `SpriteHits`. -/
theorem mem_spriteCells_iff {x0 y0 j : Nat} {rows : List Byte} :
    j ∈ spriteCells x0 y0 0 rows ↔ SpriteHits rows x0 y0 j := by
  simp only [mem_spriteCells, SpriteHits, cellIndex, Nat.zero_add, eq_comm]

theorem spriteCells_lt {x0 y0 r : Nat} {rows : List Byte} : ∀ j ∈ spriteCells x0 y0 r rows, j < 2048 := by
  intro j hj
  obtain ⟨k, b, -, -, -, rfl⟩ := mem_spriteCells.mp hj
  exact cellIndex_lt ..

theorem rowCells_nodup {x0 y0 r : Nat} {row : Byte} (hr : r < 32) : (rowCells x0 y0 r row).Nodup := by
  refine List.Nodup.map_on (fun b hb b' hb' h => ?_) (List.nodup_range.filter _)
  rw [List.mem_filter, List.mem_range] at hb hb'
  exact (cellIndex_inj hr hr hb.1 hb'.1 h).2

/-- No cell is listed twice: no two bits of a sprite fall on one cell. -/
theorem spriteCells_nodup {x0 y0 r : Nat} {rows : List Byte} (h : r + rows.length ≤ 32) :
    (spriteCells x0 y0 r rows).Nodup := by
  induction rows generalizing r with
  | nil => exact List.nodup_nil
  | cons row rows ih =>
    rw [List.length_cons] at h
    refine List.nodup_append'.mpr ⟨rowCells_nodup (by omega), ih (by omega), fun j hrow hrest => ?_⟩
    obtain ⟨b, hb, -, hj⟩ := mem_rowCells.mp hrow
    obtain ⟨k, b', hk, hb', -, hj'⟩ := mem_spriteCells.mp hrest
    have hrk := (cellIndex_inj (by omega) (by omega) hb hb' (hj.trans hj'.symm)).1
    omega

/-! ## DXYN -/

/-- The canvas after the sprite of `rows` is drawn at `V[x]`, `V[y]`. -/
def State.drawn (s : State) (x y : Nibble) (rows : List Byte) : Canvas :=
  Canvas.drawRows { fb := s.fb, hit := false } (s.v x).toNat (s.v y).toNat 0 rows

theorem cellAt_drawn (s : State) (x y : Nibble) {rows : List Byte} (hlen : rows.length ≤ 32) {j : Nat} (hj : j < 2048) :
    cellAt (s.drawn x y rows).fb j = (s.cell j ^^ decide (j ∈ spriteCells (s.v x).toNat (s.v y).toNat 0 rows)) := by
  rw [State.drawn, drawRows_eq_foldl, cellAt_foldl_toggle _ _ (spriteCells_nodup (by omega)) spriteCells_lt hj]
  rfl

theorem drawn_hit (s : State) (x y : Nibble) {rows : List Byte} (hlen : rows.length ≤ 32) :
    (s.drawn x y rows).hit = true ↔ ∃ j, SpriteHits rows (s.v x).toNat (s.v y).toNat j ∧ s.cell j = true := by
  rw [State.drawn, drawRows_eq_foldl, hit_foldl_toggle _ _ (spriteCells_nodup (by omega)) spriteCells_lt]
  simp [mem_spriteCells_iff, State.cell]

/-- The meaning of DXYN with its rows in memory (40_display.md R67). -/
theorem exec_drw {x y n : Nibble} {s : State} (h : n.toNat = 0 ∨ s.ireg.toNat + n.toNat ≤ 4096) :
    exec (.drw x y n) s =
      let c := s.drawn x y ((List.range n.toNat).map (fun r => s.mem.read (s.ireg.toNat + r)))
      .next ((s.setFb c.fb).setFlag c.hit).requestRedraw.advance := by
  simp only [exec, execDrw, State.spriteRows, Memory.readBlock_eq, State.dataBase, h, if_true]
  rfl

/-- The meaning of DXYN where its rows pass 0xFFF (R67, 20_memory.md R43). -/
theorem exec_drw_outOfRange {x y n : Nibble} {s : State} (hn : n.toNat ≠ 0) (h : 4096 < s.ireg.toNat + n.toNat) :
    exec (.drw x y n) s = raiseIn s (.drw x y n) .memoryOutOfRange (some (max s.ireg.toNat 4096)) := by
  have hout : ¬ (n.toNat = 0 ∨ s.ireg.toNat + n.toNat ≤ 4096) := by omega
  simp only [exec, execDrw, State.spriteRows, Memory.readBlock_eq, State.dataBase, hout, if_false]

/-- The redraw request is inside every frame that names it. -/
theorem State.frame_requestRedraw {w : Writes} (s : State) (hw : w.redraw = true) : Frame w s s.requestRedraw where
  __ := Frame.refl w s
  redraw h := absurd hw (Bool.eq_false_iff.mp h)

/-- Settles O25: the cells that the sprite's 1 bits fall on are all different, so each is toggled once, and a hit is a
cell that was 1 before the draw. -/
theorem drawSpriteResult : Obligations.DrawSpriteResult := by
  unfold Obligations.DrawSpriteResult
  intro x y n
  refine ⟨encodes_of_encode_eq (Laws.OpcodeMatch.drw x y n) rfl, fun s rows hrange hrows => ?_⟩
  have hlen : rows.length ≤ 32 := by
    have hn : n.toNat < 16 := n.isLt
    simp only [hrows, List.length_map, List.length_range]
    omega
  have hexec := exec_drw (x := x) (y := y) (hrange.imp_left fun h => congrArg BitVec.toNat h)
  rw [← hrows] at hexec
  have hcell (j : Nat) (hj : j < 2048) := cellAt_drawn s x y hlen hj
  have hflag : ((s.setFb (s.drawn x y rows).fb).setFlag (s.drawn x y rows).hit).v 15#4 =
      flagByte (s.drawn x y rows).hit := State.v_setV_same ..
  refine ⟨_, hexec, ⟨fun j hj hits => ?_, fun j hj hmiss => ?_, fun hhit => ?_, fun hno => ?_, rfl, rfl⟩, ?_⟩
  · exact (hcell j hj).trans (by simp [mem_spriteCells_iff.mpr hits])
  · exact (hcell j hj).trans (by simp [mem_spriteCells_iff, hmiss])
  · exact hflag.trans (by rw [(drawn_hit s x y hlen).mpr hhit]; rfl)
  · exact hflag.trans (by rw [Bool.eq_false_iff.mpr (mt (drawn_hit s x y hlen).mp hno)]; rfl)
  · exact (((s.frame_setFb _ rfl).trans (State.frame_setFlag _ _ (by simp))).trans
      (State.frame_requestRedraw _ rfl)).trans (State.frame_advance _ _)

theorem SpriteHits.lt {rows : List Byte} {x0 y0 j : Nat} (h : SpriteHits rows x0 y0 j) : j < 2048 :=
  spriteCells_lt j (mem_spriteCells_iff.mpr h)

/-- Settles O26: the second draw reads the same rows and coordinates as the first, so it toggles the same cells, and
hits where the first draw turned a cell on. -/
theorem drawingTwiceRestoresTheScreen : Obligations.DrawingTwiceRestoresTheScreen := by
  unfold Obligations.DrawingTwiceRestoresTheScreen
  intro x y n s rows hx hy hrange hrows
  obtain ⟨t, hexec, ⟨hon, hoff, -, -, -, -⟩, hframe⟩ := (drawSpriteResult x y n).2 s rows hrange hrows
  have hireg : t.ireg = s.ireg := hframe.ireg rfl
  have hvx : t.v x = s.v x := hframe.regs x (by simpa using hx)
  have hvy : t.v y = s.v y := hframe.regs y (by simpa using hy)
  have hmem (a : Nat) : t.mem.read a = s.mem.read a := hframe.mem a (by simp)
  obtain ⟨u, hexec', ⟨hon', hoff', hhit, hno, -, -⟩, -⟩ := (drawSpriteResult x y n).2 t rows
    (by rwa [hireg]) (by simp only [hmem, hireg, hrows])
  rw [hvx, hvy] at hon' hoff' hhit hno
  have hex : (∃ j, SpriteHits rows (s.v x).toNat (s.v y).toNat j ∧ t.cell j = true) ↔
      ∃ j, SpriteHits rows (s.v x).toNat (s.v y).toNat j ∧ s.cell j = false :=
    exists_congr fun j => and_congr_right fun h => by rw [hon j h.lt h, Bool.not_eq_true']
  rw [hex] at hhit hno
  refine ⟨t, u, hexec, hexec', fun j hj => ?_, hhit, hno⟩
  by_cases h : SpriteHits rows (s.v x).toNat (s.v y).toNat j
  · rw [hon' j hj h, hon j hj h, Bool.not_not]
  · rw [hoff' j hj h, hoff j hj h]

end Sys2Proof.Machine
end

section
/-! The faults of data accesses (20_memory.md R43, 60_exceptions.md R109). -/

namespace Sys2Proof.Machine

/-- Settles O49: the block does not fit below 0x1000, so nothing of it is accessed. -/
theorem dataFaultsAreTaken : Obligations.DataFaultsAreTaken := by
  unfold Obligations.DataFaultsAreTaken
  intro s
  refine ⟨fun x y n hn h => ?_, fun x h => ?_, fun x h => ⟨?_, ?_⟩⟩
  · exact raises_of_exec (exec_drw_outOfRange (fun h0 => hn (BitVec.eq_of_toNat_eq h0)) h)
  · have hlen : (bcdDigits (s.v x)).length = 3 := rfl
    exact raises_of_exec ((exec_ldB x s).trans (storeBlock_outOfRange _ (by omega) (by omega)))
  · have hlen := s.vsUpTo_length x
    exact raises_of_exec ((exec_ldMemVx x s).trans (storeBlock_outOfRange _ (by omega) (by omega)))
  · exact raises_of_exec (exec_ldVxMem_outOfRange (by omega))

end Sys2Proof.Machine
end

section
/-! What every instruction can do, said once: it raises a fault of its own kind for the cause that the spec gives, or it
runs, writing only what it names and moving PC by its rule. The rules about all instructions follow. -/

namespace Sys2Proof.Machine

/-! ## One statement about every instruction -/

/-- Why instruction `i` raises `kind` with `info` in `s` (60_exceptions.md R105, R109). -/
def FaultCause (kind : FaultKind) (info : Option Nat) (i : Instr) (s : State) : Prop :=
  kind.raisedBy i = true ∧
  match i with
  | .call _ => s.sp.val = 16 ∧ info = none
  | .ret => s.sp.val = 0 ∧ info = none
  | .skp x | .sknp x => 15 < (s.v x).toNat ∧ info = some (s.v x).toNat
  | .drw _ _ n => 4096 < s.ireg.toNat + n.toNat ∧ info = some (max s.ireg.toNat 4096)
  | .ldB _ => 4096 < s.ireg.toNat + 3 ∧ info = some (max s.ireg.toNat 4096)
  | .ldMemVx x | .ldVxMem x => 4096 < s.ireg.toNat + (x.toNat + 1) ∧ info = some (max s.ireg.toNat 4096)
  | _ => False

/-- What instruction `i` writes in `s`, beside PC, when it raises no fault (10_state.md, 20_memory.md R46). -/
def writesOf (i : Instr) (s : State) : Writes :=
  match i with
  | .cls => { fb := true }
  | .ret => { sp := true }
  | .call _ => { stack := [Fin.ofNat 16 s.sp.val], sp := true }
  | .rnd x _ => { regs := [x], draws := true }
  | .drw _ _ _ => { regs := [15#4], fb := true, redraw := true }
  | .ldI _ | .addI _ | .ldF _ => { ireg := true }
  | .ldDtVx _ => { dt := true }
  | .ldStVx _ => { st := true }
  | .ldB _ => { mem := List.range' s.ireg.toNat 3 }
  | .ldMemVx x => { mem := List.range' s.ireg.toNat (x.toNat + 1) }
  | i => { regs := registersWritten i }

/-- Where PC is in `t`, when instruction `i` took `s` there without a fault (30_encoding.md R62). -/
def PcRule (i : Instr) (s t : State) : Prop :=
  match i with
  | .jp nnn | .call nnn => t.pc.toNat = nnn.toNat
  | .ret => ∃ k : Fin 16, s.sp.val = k.val + 1 ∧ t.pc = s.stack[k] + 2#16
  | .jpV0 nnn => t.pc.toNat = (s.v 0#4).toNat + nnn.toNat + 2
  | .seImm x nn => t.pc = if s.v x = nn then s.pc + 4#16 else s.pc + 2#16
  | .sneImm x nn => t.pc = if s.v x = nn then s.pc + 2#16 else s.pc + 4#16
  | .seReg x y => t.pc = if s.v x = s.v y then s.pc + 4#16 else s.pc + 2#16
  | .sneReg x y => t.pc = if s.v x = s.v y then s.pc + 2#16 else s.pc + 4#16
  | .skp x => ∃ k : Fin 16, (s.v x).toNat = k.val ∧ t.pc = if s.keys[k] then s.pc + 4#16 else s.pc + 2#16
  | .sknp x => ∃ k : Fin 16, (s.v x).toNat = k.val ∧ t.pc = if s.keys[k] then s.pc + 2#16 else s.pc + 4#16
  | .ldVxK _ => (t.pc = s.pc ∧ ∀ k : Fin 16, s.keys[k] = false) ∨ (t.pc = s.pc + 2#16 ∧ ∃ k : Fin 16, s.keys[k] = true)
  | _ => t.pc = s.pc + 2#16

/-- A key number is at most 15, or it is the number of no key. -/
theorem State.key_cases (s : State) (x : Nibble) : 15 < (s.v x).toNat ∨ ∃ k : Fin 16, (s.v x).toNat = k.val := by
  rcases Nat.lt_or_ge 15 (s.v x).toNat with h | h
  · exact .inl h
  · exact .inr ⟨⟨_, Nat.lt_succ_of_le h⟩, rfl⟩

/-- Everything an instruction can do: each case is the result of that instruction, or the fault that stands in its
place. -/
theorem exec_cases (i : Instr) (s : State) :
    (∃ kind info, FaultCause kind info i s ∧ exec i s = raiseIn s i kind info) ∨
      Runs i s (writesOf i s) (PcRule i s) := by
  cases i with
  | cls => exact .inr ((clearScreenResult.2 s).imp fun _ ⟨_, hpc⟩ => hpc)
  | ret =>
    rcases s.sp_cases_pop with hsp | ⟨k, hsp⟩
    · exact .inl ⟨.stackUnderflow, none, ⟨rfl, hsp, rfl⟩, exec_ret_empty hsp⟩
    · exact .inr ((returnResult.2 s k hsp).imp fun _ ⟨_, hpc⟩ => ⟨k, hsp, hpc⟩)
  | jp nnn => exact .inr ((jumpResult nnn).2 s)
  | call nnn =>
    rcases s.sp_cases with hsp | ⟨k, hsp⟩
    · exact .inl ⟨.stackOverflow, none, ⟨rfl, hsp, rfl⟩, exec_call_full nnn hsp⟩
    · have hk : Fin.ofNat 16 s.sp.val = k := Fin.ext (by rw [hsp]; exact Nat.mod_eq_of_lt k.isLt)
      have hw : writesOf (.call nnn) s = { stack := [k], sp := true } := by rw [writesOf, hk]
      rw [hw]
      exact .inr (((callResult nnn).2 s k hsp).imp fun _ ⟨_, _, hpc⟩ => hpc)
  | seImm x nn =>
    obtain ⟨-, -, hskip⟩ := skipOnImmediateResult x nn
    exact .inr (hskip s).1
  | sneImm x nn =>
    obtain ⟨-, -, hskip⟩ := skipOnImmediateResult x nn
    exact .inr (hskip s).2
  | seReg x y =>
    obtain ⟨-, -, hskip⟩ := skipOnRegisterResult x y
    exact .inr (hskip s).1
  | ldImm x nn => exact .inr ((runs_of_exec_setV (exec_ldImm x nn s)).imp fun _ ⟨_, hpc⟩ => hpc)
  | addImm x nn => exact .inr ((runs_of_exec_setV (exec_addImm x nn s)).imp fun _ ⟨_, hpc⟩ => hpc)
  | ldReg x y => exact .inr ((runs_of_exec_setV (exec_ldReg x y s)).imp fun _ ⟨_, hpc⟩ => hpc)
  | orReg x y => exact .inr ((runs_of_exec_setV (exec_orReg x y s)).imp fun _ ⟨_, hpc⟩ => hpc)
  | andReg x y => exact .inr ((runs_of_exec_setV (exec_andReg x y s)).imp fun _ ⟨_, hpc⟩ => hpc)
  | xorReg x y => exact .inr ((runs_of_exec_setV (exec_xorReg x y s)).imp fun _ ⟨_, hpc⟩ => hpc)
  | addReg x y => exact .inr ((runs_of_exec_setV_setFlag (exec_addReg x y s)).imp fun _ ⟨_, _, hpc⟩ => hpc)
  | subReg x y => exact .inr ((runs_of_exec_setV_setFlag (exec_subReg x y s)).imp fun _ ⟨_, _, hpc⟩ => hpc)
  | shr x y => exact .inr ((runs_of_exec_setFlag_setV (f := (· >>> 1)) (exec_shr x y s)).imp fun _ ⟨_, _, hpc⟩ => hpc)
  | subnReg x y => exact .inr ((runs_of_exec_setV_setFlag (exec_subnReg x y s)).imp fun _ ⟨_, _, hpc⟩ => hpc)
  | shl x y => exact .inr ((runs_of_exec_setFlag_setV (f := (· <<< 1)) (exec_shl x y s)).imp fun _ ⟨_, _, hpc⟩ => hpc)
  | sneReg x y =>
    obtain ⟨-, -, hskip⟩ := skipOnRegisterResult x y
    exact .inr (hskip s).2
  | ldI nnn => exact .inr ((runs_of_exec_setI (exec_ldI nnn s)).imp fun _ ⟨_, hpc⟩ => hpc)
  | jpV0 nnn => exact .inr ((jumpV0Result nnn).2 s)
  | rnd x nn => exact .inr (((randomResult x nn).2 s).imp fun _ ⟨_, _, _, hpc⟩ => hpc)
  | drw x y n =>
    by_cases hr : n.toNat = 0 ∨ s.ireg.toNat + n.toNat ≤ 4096
    · have hr' : n = 0#4 ∨ s.ireg.toNat + n.toNat ≤ 4096 := hr.imp_left fun h => BitVec.eq_of_toNat_eq h
      exact .inr (((drawSpriteResult x y n).2 s _ hr' rfl).imp fun _ ⟨_, _, _, _, _, hpc⟩ => hpc)
    · exact .inl ⟨.memoryOutOfRange, _, ⟨rfl, by omega, rfl⟩, exec_drw_outOfRange (by omega) (by omega)⟩
  | skp x =>
    rcases s.key_cases x with hx | ⟨k, hk⟩
    · exact .inl ⟨.keyIndexOutOfRange, _, ⟨rfl, hx, rfl⟩, exec_skp_noKey hx⟩
    · exact .inr ((runs_of_exec_skipIf (exec_skp hk)).imp fun _ h => ⟨k, hk, h⟩)
  | sknp x =>
    rcases s.key_cases x with hx | ⟨k, hk⟩
    · exact .inl ⟨.keyIndexOutOfRange, _, ⟨rfl, hx, rfl⟩, exec_sknp_noKey hx⟩
    · exact .inr ((runs_of_exec_skipIf_not (exec_sknp hk)).imp fun _ h => ⟨k, hk, h⟩)
  | ldVxDt x => exact .inr ((runs_of_exec_setV (exec_ldVxDt x s)).imp fun _ ⟨_, hpc⟩ => hpc)
  | ldVxK x =>
    rcases s.firstKey_cases with ⟨-, hnone⟩ | ⟨k, hfirst, hk, -⟩
    · exact .inr ⟨s, exec_ldVxK_waiting x hnone, .inl ⟨rfl, hnone⟩, Frame.refl _ s⟩
    · exact .inr ((runs_of_exec_setV (exec_ldVxK_of_firstKey x hfirst)).imp fun _ ⟨_, hpc⟩ => .inr ⟨hpc, k, hk⟩)
  | ldDtVx x => exact .inr (((setDelayTimerResult x).2 s).1.imp fun _ ⟨_, hpc⟩ => hpc)
  | ldStVx x => exact .inr (((setSoundTimerResult x).2 s).1.imp fun _ ⟨_, hpc⟩ => hpc)
  | addI x => exact .inr ((runs_of_exec_setI (exec_addI x s)).imp fun _ ⟨_, hpc⟩ => hpc)
  | ldF x => exact .inr ((runs_of_exec_setI (exec_ldF x s)).imp fun _ ⟨_, hpc⟩ => hpc)
  | ldB x =>
    have hlen : (bcdDigits (s.v x)).length = 3 := rfl
    by_cases hr : s.ireg.toNat + 3 ≤ 4096
    · exact .inr ((runs_of_storeBlock (exec_ldB x s) hr).imp fun _ ⟨_, hpc⟩ => hpc)
    · exact .inl ⟨.memoryOutOfRange, _, ⟨rfl, by omega, rfl⟩,
        (exec_ldB x s).trans (storeBlock_outOfRange _ (by omega) (by omega))⟩
  | ldMemVx x =>
    have hlen := s.vsUpTo_length x
    by_cases hr : s.ireg.toNat + (x.toNat + 1) ≤ 4096
    · have hruns := runs_of_storeBlock (exec_ldMemVx x s) (by omega)
      rw [hlen] at hruns
      exact .inr (hruns.imp fun _ ⟨_, hpc⟩ => hpc)
    · exact .inl ⟨.memoryOutOfRange, _, ⟨rfl, by omega, rfl⟩,
        (exec_ldMemVx x s).trans (storeBlock_outOfRange _ (by omega) (by omega))⟩
  | ldVxMem x =>
    by_cases hr : s.ireg.toNat + (x.toNat + 1) ≤ 4096
    · exact .inr (((loadRegistersResult x).2 s (by omega)).imp fun _ ⟨_, hpc⟩ => hpc)
    · exact .inl ⟨.memoryOutOfRange, _, ⟨rfl, by omega, rfl⟩, exec_ldVxMem_outOfRange (by omega)⟩

/-- `exec_cases` for a next state that is known. -/
theorem exec_next_cases {i : Instr} {s t : State} (h : exec i s = .next t) :
    (∃ kind info, FaultCause kind info i s ∧ t = s.raise kind (some (encode i)) info) ∨
      (PcRule i s t ∧ Frame (writesOf i s) s t) := by
  rcases exec_cases i s with ⟨kind, info, hcause, hexec⟩ | ⟨t', hexec, hpc, hframe⟩
  · exact .inl ⟨kind, info, hcause, Host.Outcome.next.inj (h.symm.trans hexec)⟩
  · obtain rfl : t = t' := Host.Outcome.next.inj (h.symm.trans hexec)
    exact .inr ⟨hpc, hframe⟩

theorem exec_next (i : Instr) (s : State) : ∃ t, exec i s = .next t := by
  rcases exec_cases i s with ⟨kind, info, -, hexec⟩ | ⟨t, hexec, -, -⟩
  · exact ⟨_, hexec⟩
  · exact ⟨t, hexec⟩

theorem writesOf_fault (i : Instr) (s : State) : (writesOf i s).fault = false := by
  unfold writesOf
  split <;> rfl

theorem writesOf_tone (i : Instr) (s : State) : (writesOf i s).tone = false := by
  unfold writesOf
  split <;> rfl

theorem writesOf_trace (i : Instr) (s : State) : (writesOf i s).trace = false := by
  unfold writesOf
  split <;> rfl

theorem writesOf_redraw {i : Instr} (s : State) (h : ∀ x y n, i ≠ .drw x y n) : (writesOf i s).redraw = false := by
  unfold writesOf
  split <;> simp_all

/-- Settles O15: an instruction that runs leaves the record, and one that raises writes it. -/
theorem everyInstructionAnswersNext : Obligations.EveryInstructionAnswersNext := by
  unfold Obligations.EveryInstructionAnswersNext
  intro i s
  obtain ⟨t, hexec⟩ := exec_next i s
  refine ⟨t, hexec, ?_⟩
  rcases exec_next_cases hexec with ⟨kind, info, ⟨hraised, -⟩, rfl⟩ | ⟨-, hframe⟩
  · exact .inr ⟨_, rfl, hraised, rfl, rfl⟩
  · exact .inl (hframe.fault (writesOf_fault i s))

/-- Settles O21: an instruction that raises leaves a record, and one that runs moves PC by its rule. -/
theorem pcAfterEachInstruction : Obligations.PcAfterEachInstruction := by
  unfold Obligations.PcAfterEachInstruction
  intro i s t _ hexec hfault
  rcases exec_next_cases hexec with ⟨kind, info, -, rfl⟩ | ⟨hpc, -⟩
  · cases hfault
  · exact hpc

end Sys2Proof.Machine
end

section
/-! Who writes what (10_state.md R21, R23, R27 to R31, 20_memory.md R46): what a frame says of each piece of state as a
whole, and memory, which only the two stores write. -/

namespace Sys2Proof.Machine

/-! ## Pieces of state as a whole -/

/-- Framebuffers with the same cells are equal. -/
theorem fb_ext {fb fb' : Vector (BitVec 64) 32} (h : ∀ j, cellAt fb j = cellAt fb' j) : fb = fb' := by
  refine Vector.ext fun row hrow => BitVec.eq_of_getLsbD_eq fun col hcol => ?_
  have hdiv : (row * 64 + col) / 64 % 32 = row := by omega
  have hmod : (row * 64 + col) % 64 = col := by omega
  simpa only [cellAt, hdiv, hmod] using h (row * 64 + col)

theorem Frame.fb_eq {w : Writes} {s t : State} (h : Frame w s t) (hw : w.fb = false) : t.fb = s.fb :=
  fb_ext (h.fb hw)

theorem Frame.stack_eq {w : Writes} {s t : State} (h : Frame w s t) (hw : w.stack = []) : t.stack = s.stack :=
  Vector.ext fun k hk => h.stack ⟨k, hk⟩ (by simp [hw])

/-! ## Memory -/

/-- A store leaves memory as it is, or writes a block that fits (20_memory.md R43). -/
theorem storeBlock_mem {i : Instr} {bytes : List Byte} {s t : State} (h : storeBlock i bytes s = .next t) :
    t.mem = s.mem ∨ s.mem.writeBlock s.dataBase bytes = .ok t.mem := by
  unfold storeBlock at h
  split at h
  · cases h
    exact .inl rfl
  · next hw =>
    cases h
    exact .inr hw

theorem State.skipIf_mem (s : State) (c : Bool) : (s.skipIf c).mem = s.mem := by
  rw [State.skipIf_eq, State.setPc_mem]

theorem State.setVs_mem (s : State) (k : Nat) (bytes : List Byte) : (s.setVs k bytes).mem = s.mem := by
  rw [State.setVs_eq]

/-- What an instruction does to memory: nothing, unless it is FX33 or FX55. -/
theorem exec_mem {i : Instr} {s t : State} (h : exec i s = .next t) :
    t.mem = s.mem ∨
      (∃ x, i = .ldB x ∨ i = .ldMemVx x) ∧ ∃ bytes, s.mem.writeBlock s.dataBase bytes = .ok t.mem := by
  cases i with
  | ldB x => exact (storeBlock_mem h).imp_right fun hw => ⟨⟨x, .inl rfl⟩, _, hw⟩
  | ldMemVx x => exact (storeBlock_mem h).imp_right fun hw => ⟨⟨x, .inr rfl⟩, _, hw⟩
  | ret =>
    rcases s.sp_cases_pop with hsp | ⟨k, hsp⟩
    · cases (exec_ret_empty hsp).symm.trans h
      exact .inl rfl
    · cases (exec_ret hsp).symm.trans h
      exact .inl rfl
  | call nnn =>
    rcases s.sp_cases with hsp | ⟨k, hsp⟩
    · cases (exec_call_full nnn hsp).symm.trans h
      exact .inl rfl
    · cases (exec_call nnn hsp).symm.trans h
      exact .inl rfl
  | drw x y n =>
    by_cases hr : n.toNat = 0 ∨ s.ireg.toNat + n.toNat ≤ 4096
    · cases (exec_drw hr).symm.trans h
      exact .inl rfl
    · cases (exec_drw_outOfRange (by omega) (by omega)).symm.trans h
      exact .inl rfl
  | seImm | sneImm | seReg | sneReg =>
    cases h
    exact .inl (State.skipIf_mem ..)
  | skp x =>
    rcases s.key_cases x with hx | ⟨k, hk⟩
    · cases (exec_skp_noKey hx).symm.trans h
      exact .inl rfl
    · cases (exec_skp hk).symm.trans h
      exact .inl (State.skipIf_mem ..)
  | sknp x =>
    rcases s.key_cases x with hx | ⟨k, hk⟩
    · cases (exec_sknp_noKey hx).symm.trans h
      exact .inl rfl
    · cases (exec_sknp hk).symm.trans h
      exact .inl (State.skipIf_mem ..)
  | ldVxK x =>
    rcases s.firstKey_cases with ⟨-, hnone⟩ | ⟨k, hfirst, -, -⟩
    · cases (exec_ldVxK_waiting x hnone).symm.trans h
      exact .inl rfl
    · cases (exec_ldVxK_of_firstKey x hfirst).symm.trans h
      exact .inl rfl
  | ldVxMem x =>
    by_cases hr : s.ireg.toNat + (x.toNat + 1) ≤ 4096
    · cases (exec_ldVxMem hr).symm.trans h
      exact .inl (State.setVs_mem ..)
    · cases (exec_ldVxMem_outOfRange (by omega)).symm.trans h
      exact .inl rfl
  | _ =>
    cases h
    exact .inl rfl

/-- What the instructions of a kind alone write, kind by kind. -/
theorem writesOf_names (i : Instr) (s : State) :
    (∀ y, y ∉ registersWritten i → y ∉ (writesOf i s).regs) ∧
    ((∀ nnn, i ≠ .call nnn) → (writesOf i s).stack = []) ∧
    ((∀ nnn, i ≠ .ret ∧ i ≠ .call nnn) → (writesOf i s).sp = false) ∧
    ((∀ nnn x, i ≠ .ldI nnn ∧ i ≠ .addI x ∧ i ≠ .ldF x) → (writesOf i s).ireg = false) ∧
    ((∀ x, i ≠ .ldDtVx x) → (writesOf i s).dt = false) ∧
    ((∀ x, i ≠ .ldStVx x) → (writesOf i s).st = false) ∧
    ((∀ x y n, i ≠ .cls ∧ i ≠ .drw x y n) → (writesOf i s).fb = false) ∧
    ((∀ x nn, i ≠ .rnd x nn) → (writesOf i s).draws = false) := by
  unfold writesOf
  split <;> simp [registersWritten]

/-- Settles O20: the frame of an instruction that runs leaves all that its kind does not name, and a fault writes
nothing but the record and the signals. -/
theorem onlyNamedInstructionsWrite : Obligations.OnlyNamedInstructionsWrite := by
  unfold Obligations.OnlyNamedInstructionsWrite
  intro i s t hexec
  have hwait : (∀ k : Fin 16, s.keys[k] = false) → (∃ x, i = .ldVxK x) → ∀ y, t.v y = s.v y := by
    rintro hnone ⟨x, rfl⟩ y
    cases (exec_ldVxK_waiting x hnone).symm.trans hexec
    rfl
  have hmem : (∀ x, i ≠ .ldB x ∧ i ≠ .ldMemVx x) → t.mem = s.mem := by
    rintro hi
    refine (exec_mem hexec).resolve_right ?_
    rintro ⟨⟨x, hx⟩, -⟩
    exact hx.elim (hi x).1 (hi x).2
  rcases exec_next_cases hexec with ⟨kind, info, ⟨hraised, -⟩, rfl⟩ | ⟨-, hf⟩
  · exact ⟨fun _ _ => rfl, hwait, hmem, fun _ => rfl, fun _ => rfl, fun _ => rfl, fun _ => rfl, fun _ => rfl,
      fun _ => rfl, fun _ => rfl, rfl, rfl, .inr ⟨_, rfl, hraised, rfl, rfl⟩⟩
  · obtain ⟨hregs, hstack, hsp, hireg, hdt, hst, hfb, hdraws⟩ := writesOf_names i s
    exact ⟨fun y hy => hf.regs y (hregs y hy), hwait, hmem, fun hi => hf.stack_eq (hstack hi),
      fun hi => hf.sp (hsp hi), fun hi => hf.ireg (hireg hi), fun hi => hf.dt (hdt hi), fun hi => hf.st (hst hi),
      fun hi => hf.fb_eq (hfb hi), fun hi => hf.draws (hdraws hi), hf.keys, hf.trace (writesOf_trace i s),
      .inl ⟨hf.fault (writesOf_fault i s), hf.tone (writesOf_tone i s), fun hi => hf.redraw (writesOf_redraw s hi)⟩⟩

end Sys2Proof.Machine
end

section
/-! What nothing reads: the trace, and, of the instructions, the sound timer (10_state.md R29, R33). Both are one fact:
changing them before an instruction is changing them after it. -/

namespace Sys2Proof.Machine

/-- The state with its sound timer and its trace changed. -/
def State.mapUnread (f : Byte → Byte) (g : Option Trace → Option Trace) (s : State) : State :=
  { s with st := f s.st, trace := g s.trace }

theorem State.skipIf_mapUnread (f : Byte → Byte) (g : Option Trace → Option Trace) (s : State) (c : Bool) :
    (s.mapUnread f g).skipIf c = (s.skipIf c).mapUnread f g := by
  rw [State.skipIf_eq, State.skipIf_eq]
  rfl

theorem State.setVs_mapUnread (f : Byte → Byte) (g : Option Trace → Option Trace) (s : State) (k : Nat)
    (bytes : List Byte) : (s.mapUnread f g).setVs k bytes = (s.setVs k bytes).mapUnread f g := by
  induction bytes generalizing s k with
  | nil => rfl
  | cons b bs ih => exact ih (s.setV (BitVec.ofNat 4 k) b) (k + 1)

theorem storeBlock_mapUnread (f : Byte → Byte) (g : Option Trace → Option Trace) {i : Instr} {bytes : List Byte}
    {s t : State} (h : storeBlock i bytes s = .next t) :
    storeBlock i bytes (s.mapUnread f g) = .next (t.mapUnread f g) := by
  cases hw : s.mem.writeBlock s.dataBase bytes with
  | error a =>
    have hw' : (s.mapUnread f g).mem.writeBlock (s.mapUnread f g).dataBase bytes = .error a := hw
    simp only [storeBlock, hw] at h
    simp only [storeBlock, hw']
    cases h
    rfl
  | ok m =>
    have hw' : (s.mapUnread f g).mem.writeBlock (s.mapUnread f g).dataBase bytes = .ok m := hw
    simp only [storeBlock, hw] at h
    simp only [storeBlock, hw']
    cases h
    rfl

/-- Every instruction but FX18, which writes the sound timer, commutes with a change of the sound timer and the trace;
FX18 does with a change of the trace alone. -/
theorem exec_mapUnread {i : Instr} {s t : State} {f : Byte → Byte} (g : Option Trace → Option Trace)
    (hst : (∀ x, i ≠ .ldStVx x) ∨ f = id) (h : exec i s = .next t) :
    exec i (s.mapUnread f g) = .next (t.mapUnread f g) := by
  cases i with
  | ldStVx x =>
    obtain rfl : f = id := hst.resolve_left fun hne => hne x rfl
    cases h
    rfl
  | ret =>
    rcases s.sp_cases_pop with hsp | ⟨k, hsp⟩
    · cases (exec_ret_empty hsp).symm.trans h
      exact exec_ret_empty (s := s.mapUnread f g) hsp
    · cases (exec_ret hsp).symm.trans h
      exact exec_ret (s := s.mapUnread f g) hsp
  | call nnn =>
    rcases s.sp_cases with hsp | ⟨k, hsp⟩
    · cases (exec_call_full nnn hsp).symm.trans h
      exact exec_call_full nnn (s := s.mapUnread f g) hsp
    · cases (exec_call nnn hsp).symm.trans h
      exact exec_call nnn (s := s.mapUnread f g) hsp
  | drw x y n =>
    by_cases hr : n.toNat = 0 ∨ s.ireg.toNat + n.toNat ≤ 4096
    · cases (exec_drw hr).symm.trans h
      exact exec_drw (s := s.mapUnread f g) hr
    · have hn : n.toNat ≠ 0 := fun h0 => hr (.inl h0)
      have hout : 4096 < s.ireg.toNat + n.toNat := by omega
      cases (exec_drw_outOfRange hn hout).symm.trans h
      exact exec_drw_outOfRange (s := s.mapUnread f g) hn hout
  | seImm | sneImm | seReg | sneReg =>
    cases h
    exact congrArg Host.Outcome.next (State.skipIf_mapUnread ..)
  | skp x =>
    rcases s.key_cases x with hx | ⟨k, hk⟩
    · cases (exec_skp_noKey hx).symm.trans h
      exact exec_skp_noKey (s := s.mapUnread f g) hx
    · cases (exec_skp hk).symm.trans h
      exact (exec_skp (s := s.mapUnread f g) hk).trans (congrArg _ (State.skipIf_mapUnread ..))
  | sknp x =>
    rcases s.key_cases x with hx | ⟨k, hk⟩
    · cases (exec_sknp_noKey hx).symm.trans h
      exact exec_sknp_noKey (s := s.mapUnread f g) hx
    · cases (exec_sknp hk).symm.trans h
      exact (exec_sknp (s := s.mapUnread f g) hk).trans (congrArg _ (State.skipIf_mapUnread ..))
  | ldVxK x =>
    rcases s.firstKey_cases with ⟨-, hnone⟩ | ⟨k, hfirst, -, -⟩
    · cases (exec_ldVxK_waiting x hnone).symm.trans h
      exact exec_ldVxK_waiting x (s := s.mapUnread f g) hnone
    · cases (exec_ldVxK_of_firstKey x hfirst).symm.trans h
      exact exec_ldVxK_of_firstKey x (s := s.mapUnread f g) hfirst
  | ldB x => exact storeBlock_mapUnread f g h
  | ldMemVx x => exact storeBlock_mapUnread f g h
  | ldVxMem x =>
    by_cases hr : s.ireg.toNat + (x.toNat + 1) ≤ 4096
    · cases (exec_ldVxMem hr).symm.trans h
      exact (exec_ldVxMem (s := s.mapUnread f g) hr).trans
        (congrArg (fun t : State => Host.Outcome.next t.advance) (State.setVs_mapUnread ..))
    · have hout : 4096 < s.ireg.toNat + (x.toNat + 1) := by omega
      cases (exec_ldVxMem_outOfRange hout).symm.trans h
      exact exec_ldVxMem_outOfRange (s := s.mapUnread f g) hout
  | _ =>
    cases h
    rfl

/-- Settles O22: an instruction other than FX18 commutes with setting the timer, and FX18 sets it whatever it was. -/
theorem noInstructionReadsSoundTimer : Obligations.NoInstructionReadsSoundTimer := by
  unfold Obligations.NoInstructionReadsSoundTimer
  intro i s t b hexec
  by_cases hi : ∃ x, i = .ldStVx x
  · obtain ⟨x, rfl⟩ := hi
    cases (exec_ldStVx x s).symm.trans hexec
    exact ⟨_, exec_ldStVx x (s.setSt b), rfl, fun hne => absurd rfl (hne x), fun _ _ => rfl⟩
  · have hne : ∀ x, i ≠ .ldStVx x := fun x hx => hi ⟨x, hx⟩
    exact ⟨_, exec_mapUnread (f := fun _ => b) id (.inl hne) hexec, rfl, fun _ => rfl, fun x hx => absurd hx (hne x)⟩

end Sys2Proof.Machine
end

section
/-! The step as a whole (30_encoding.md R63, 60_exceptions.md): it stops only at a recorded fault, every fault it takes
is precise, and it keeps the invariant. -/

namespace Sys2Proof.Machine

/-! ## When there is a step -/

/-- A core without a record takes a step: it faults in the fetch or in decoding, or its instruction answers. -/
theorem step_next {s : State} (hs : s.fault = none) : ∃ t, step s = .next t := by
  cases hfetch : s.fetch with
  | none => exact ⟨_, step_of_fetch_none hs hfetch⟩
  | some op =>
    cases hdec : decode op with
    | error e => exact ⟨_, step_of_decode_error hs hfetch hdec⟩
    | ok i =>
      obtain ⟨t, hexec⟩ := exec_next i s.beginStep
      exact ⟨_, step_of_decode_ok hs hfetch hdec hexec⟩

/-- Settles O14: a record halts the core, and nothing else does. -/
theorem onlyRecordedFaultsStopTheCore : Obligations.OnlyRecordedFaultsStopTheCore := by
  unfold Obligations.OnlyRecordedFaultsStopTheCore
  exact fun s => ⟨fun r => step_halted, step_next⟩

/-- Settles O10: the step's fetch and decoding give `i`, which answers a next state, and the step ends from there. -/
theorem stepRunsDecodedInstruction : Obligations.StepRunsDecodedInstruction := by
  unfold Obligations.StepRunsDecodedInstruction
  intro s i hs hpc hdec
  have hbegin : ({ s with redraw := false, tone := false } : State) = s.beginStep := rfl
  obtain ⟨t, hexec⟩ := exec_next i s.beginStep
  rw [hbegin, hexec]
  exact step_of_decode_ok hs (s.fetch_eq hpc) hdec hexec

/-- The end of a step does not read the trace that the step began with. -/
theorem finishStep_mapUnread (op : Word) (i : Instr) (s t : State) (g : Option Trace → Option Trace) :
    { finishStep op i (s.mapUnread id g) (t.mapUnread id g) with trace := none } =
      { finishStep op i s t with trace := none } := by
  cases hfault : t.fault with
  | none =>
    have hfault' : (t.mapUnread id g).fault = none := hfault
    rw [finishStep_of_running _ _ _ _ hfault, finishStep_of_running _ _ _ _ hfault']
    rfl
  | some r =>
    have hfault' : (t.mapUnread id g).fault = some r := hfault
    rw [finishStep_of_fault _ _ _ _ hfault, finishStep_of_fault _ _ _ _ hfault']
    rfl

/-- Settles O23: fetching and decoding do not read the trace, the instruction commutes with a change of it, and the end
of the step writes it anew or leaves it. -/
theorem nothingDependsOnTheTrace : Obligations.NothingDependsOnTheTrace := by
  unfold Obligations.NothingDependsOnTheTrace
  intro s tr
  have hmap : ({ s with trace := tr } : State) = s.mapUnread id (fun _ => tr) := rfl
  rw [hmap]
  refine ⟨fun t hstep => ?_, fun f hstep => ?_⟩
  · obtain ⟨hs, ⟨hfetch, rfl⟩ | ⟨op, e, hfetch, hdec, rfl⟩ | ⟨op, i, t, hfetch, hdec, hexec, rfl⟩⟩ := step_cases hstep
    · exact ⟨_, step_of_fetch_none (s := s.mapUnread id _) hs hfetch, rfl⟩
    · exact ⟨_, step_of_decode_error (s := s.mapUnread id _) hs hfetch hdec, rfl⟩
    · have hexec' := exec_mapUnread (fun _ => tr) (.inr rfl) hexec
      exact ⟨_, step_of_decode_ok (s := s.mapUnread id _) hs hfetch hdec hexec',
        finishStep_mapUnread op i s.beginStep t _⟩
  · cases hs : s.fault with
    | none =>
      obtain ⟨t, ht⟩ := step_next hs
      cases ht.symm.trans hstep
    | some r =>
      cases (step_halted hs).symm.trans hstep
      exact step_halted (s := s.mapUnread id _) hs

/-! ## What a step can do -/

/-- A step that faults takes its fault precisely, with a record that describes it, or it runs an instruction to its end
(60_exceptions.md R107). -/
theorem step_faults_or_runs {s u : State} (h : step s = .next u) :
    (∃ r : FaultRecord, u = { s with fault := some r, redraw := false, tone := false } ∧ r.describes u) ∨
    (∃ i t, s.fetch = some (encode i) ∧ exec i s.beginStep = .next t ∧ Frame (writesOf i s.beginStep) s.beginStep t ∧
      t.fault = none ∧ u = finishStep (encode i) i s.beginStep t) := by
  obtain ⟨hs, ⟨hfetch, rfl⟩ | ⟨op, e, hfetch, hdec, rfl⟩ | ⟨op, i, t, hfetch, hdec, hexec, rfl⟩⟩ := step_cases h
  · exact .inl ⟨_, rfl, rfl, hfetch.symm, rfl, rfl, s.fetch_eq_none_iff.mp hfetch, rfl⟩
  · obtain ⟨-, rfl⟩ := decode_error_iff.mp hdec
    exact .inl ⟨_, rfl, rfl, hfetch.symm, rfl, rfl, op, hfetch, hdec, rfl⟩
  · obtain rfl := encode_of_decode hdec
    rcases exec_next_cases hexec with ⟨kind, info, ⟨hraised, hcause⟩, rfl⟩ | ⟨-, hframe⟩
    · rw [finishStep_of_fault _ _ _ _ rfl]
      refine .inl ⟨_, rfl, rfl, hfetch.symm, rfl, rfl, ?_⟩
      cases kind with
      | unrecognizedOpcode => cases hraised
      | fetchOutOfRange => cases hraised
      | memoryOutOfRange | stackOverflow | stackUnderflow | keyIndexOutOfRange => exact ⟨i, hfetch, hraised, hcause⟩
    · exact .inr ⟨i, t, hfetch, hexec, hframe, (hframe.fault (writesOf_fault i _)).trans hs, rfl⟩

/-! ## Faults -/

/-- The code of a fault that an instruction raises, by the instruction (60_exceptions.md R105). -/
theorem FaultKind.code_of_raisedBy {kind : FaultKind} {i : Instr} (h : kind.raisedBy i = true) :
    kind.code ≠ 1 ∧ kind.code ≠ 2 ∧
    (kind.code = 3 ↔ (∃ x y n, i = .drw x y n) ∨ (∃ x, i = .ldB x) ∨ (∃ x, i = .ldMemVx x) ∨ (∃ x, i = .ldVxMem x)) ∧
    (kind.code = 4 ↔ ∃ nnn, i = .call nnn) ∧ (kind.code = 5 ↔ i = .ret) ∧
    (kind.code = 6 ↔ (∃ x, i = .skp x) ∨ (∃ x, i = .sknp x)) := by
  unfold FaultKind.raisedBy at h
  split at h <;> simp_all [FaultKind.code]

/-- A record that describes `s` is of the fetch, of decoding, or of an instruction that raises its kind. -/
theorem FaultRecord.describes_cases {r : FaultRecord} {s : State} (h : r.describes s) :
    (r.kind = .fetchOutOfRange ∧ 0xFFE < s.pc.toNat) ∨
    (r.kind = .unrecognizedOpcode ∧ ∃ op, s.fetch = some op ∧ decode op = .error (.unrecognizedOpcode op)) ∨
    (∃ i, s.fetch = some (encode i) ∧ r.kind.raisedBy i = true) := by
  obtain ⟨kind, pc, opcode, info⟩ := r
  obtain ⟨-, -, -, -, h⟩ := h
  cases kind with
  | fetchOutOfRange => exact .inl ⟨rfl, h.1⟩
  | unrecognizedOpcode =>
    obtain ⟨op, hfetch, hdec, -⟩ := h
    exact .inr (.inl ⟨rfl, op, hfetch, hdec⟩)
  | memoryOutOfRange | stackOverflow | stackUnderflow | keyIndexOutOfRange =>
    obtain ⟨i, hfetch, hraised, -⟩ := h
    exact .inr (.inr ⟨i, hfetch, hraised⟩)

/-- An opcode that is fetched stands at a PC of at most 0xFFE (20_memory.md R47). -/
theorem State.pc_of_fetch {s : State} {op : Word} (h : s.fetch = some op) : ¬ 0xFFE < s.pc.toNat := fun hpc => by
  rw [s.fetch_none hpc] at h
  cases h

/-- The code of a record that describes `s`, by what stands at PC (60_exceptions.md R105): an opcode is that of one
instruction, or it is unrecognized, or there is none. -/
theorem FaultRecord.describes_codes {r : FaultRecord} {s : State} (h : r.describes s) :
    (r.kind.code = 1 ↔ ∃ op, s.fetch = some op ∧ decode op = .error (.unrecognizedOpcode op)) ∧
    (r.kind.code = 2 ↔ 0xFFE < s.pc.toNat) ∧
    (r.kind.code = 3 ↔ (∃ x y n, s.fetch = some (encode (.drw x y n))) ∨ (∃ x, s.fetch = some (encode (.ldB x))) ∨
      (∃ x, s.fetch = some (encode (.ldMemVx x))) ∨ (∃ x, s.fetch = some (encode (.ldVxMem x)))) ∧
    (r.kind.code = 4 ↔ ∃ nnn, s.fetch = some (encode (.call nnn))) ∧
    (r.kind.code = 5 ↔ s.fetch = some (encode .ret)) ∧
    (r.kind.code = 6 ↔ (∃ x, s.fetch = some (encode (.skp x))) ∨ (∃ x, s.fetch = some (encode (.sknp x)))) := by
  rcases FaultRecord.describes_cases h with ⟨hkind, hpc⟩ | ⟨hkind, op, hfetch, hdec⟩ | ⟨i, hfetch, hraised⟩
  · simp [hkind, FaultKind.code, hpc, s.fetch_none hpc]
  · have hne : ∀ j, op ≠ encode j := by
      rintro j rfl
      cases (decode_encode j).symm.trans hdec
    simp [hkind, FaultKind.code, State.pc_of_fetch hfetch, hfetch, hdec, hne]
  · obtain ⟨h1, h2, h3, h4, h5, h6⟩ := FaultKind.code_of_raisedBy hraised
    simp only [hfetch, Option.some.injEq, encode_injective.eq_iff, h1, h2, h3, h4, h5, h6, State.pc_of_fetch hfetch,
      false_iff, not_exists, not_and, and_self, and_true]
    rintro _ rfl hdec
    cases (decode_encode i).symm.trans hdec

/-- Settles O13: the record of a step describes the state that it leaves, where PC and the opcode are as before, and an
opcode is that of one instruction. -/
theorem faultsArePrecise : Obligations.FaultsArePrecise := by
  unfold Obligations.FaultsArePrecise
  intro s t r hstep hfault
  obtain ⟨r, rfl, hdesc⟩ | ⟨i, u, -, -, -, hu, rfl⟩ := step_faults_or_runs hstep
  · cases hfault
    have hcodes := FaultRecord.describes_codes hdesc
    exact ⟨rfl, hdesc, hcodes⟩
  · rw [finishStep_of_running _ _ _ _ hu] at hfault
    cases hu.symm.trans hfault

/-! ## The redraw signal -/

/-- DXYN without a fault asks for a redraw (60_exceptions.md R119). -/
theorem exec_drw_redraw {x y n : Nibble} {s t : State} (h : exec (.drw x y n) s = .next t) (hfault : t.fault = none) :
    t.redraw = true := by
  by_cases hr : n.toNat = 0 ∨ s.ireg.toNat + n.toNat ≤ 4096
  · cases (exec_drw hr).symm.trans h
    rfl
  · cases (exec_drw_outOfRange (by omega) (by omega)).symm.trans h
    cases hfault

/-- Settles O16: a step begins with the signal false, and of the instructions that run only DXYN is not framed by
that. -/
theorem redrawExactlyOnDraw : Obligations.RedrawExactlyOnDraw := by
  unfold Obligations.RedrawExactlyOnDraw
  intro s u hstep
  obtain ⟨r, rfl, -⟩ | ⟨i, t, hfetch, hexec, hframe, hfault, rfl⟩ := step_faults_or_runs hstep
  · simp
  · have hredraw : (finishStep (encode i) i s.beginStep t).redraw = t.redraw := by
      rw [finishStep_of_running _ _ _ _ hfault]; rfl
    have hfault' : (finishStep (encode i) i s.beginStep t).fault = none := by
      rw [finishStep_of_running _ _ _ _ hfault]; exact hfault
    have hdraw : (∃ x y n, s.fetch = some (encode (.drw x y n))) ↔ ∃ x y n, i = .drw x y n := by
      simp only [hfetch, Option.some.injEq, encode_injective.eq_iff]
    rw [hredraw, hfault', hdraw, eq_self_iff_true, true_and]
    constructor
    · intro ht
      by_contra hi
      have hkept := hframe.redraw (writesOf_redraw _ fun x y n h => hi ⟨x, y, n, h⟩)
      cases ht.symm.trans hkept
    · rintro ⟨x, y, n, rfl⟩
      exact exec_drw_redraw hexec hfault

/-! ## The invariant -/

/-- Every instruction keeps memory in canonical form. -/
theorem exec_mem_wf {i : Instr} {s t : State} (h : exec i s = .next t) (hs : s.mem.wf = true) : t.mem.wf = true := by
  rcases exec_mem h with hmem | ⟨-, bytes, hw⟩
  · rw [hmem]
    exact hs
  · exact Memory.writeBlock_wf hw hs

/-- Settles O18: a step that faults changes no memory and leaves a record that describes its state; one that runs keeps
memory canonical, has no record, and ends in a tick, which sounds the tone only as the timer reaches 0. -/
theorem stepKeepsInvariant : Obligations.StepKeepsInvariant := by
  unfold Obligations.StepKeepsInvariant
  intro s u hs hstep
  obtain ⟨r, rfl, hdesc⟩ | ⟨i, t, -, hexec, -, hfault, rfl⟩ := step_faults_or_runs hstep
  · refine ⟨hs.memory, ?_, nofun⟩
    rintro r' ⟨⟩
    exact hdesc
  · rw [finishStep_of_running _ _ _ _ hfault]
    have hwf : t.mem.wf = true := exec_mem_wf hexec hs.memory
    refine ⟨hwf, fun r hr => ?_, fun htone => ?_⟩
    · cases hfault.symm.trans hr
    · rw [State.setTrace_tone, State.tick_tone, Bool.and_eq_true, decide_eq_true_eq, decide_eq_true_eq] at htone
      exact htone.2

/-- Init meets the invariant: the image's block lies in memory. -/
theorem State.init_inv {image : List Byte} {s : State} (h : State.init image = some s) : s.Inv := by
  rcases Nat.lt_or_ge 3584 image.length with hlen | hlen
  · cases (State.init_too_long hlen).symm.trans h
  · cases (State.init_eq hlen).symm.trans h
    exact ⟨Memory.writeBytes_wf _ 0x200 image (by omega) State.reset_mem_wf, nofun, nofun⟩

/-- The host's write of the keypad keeps the invariant, which does not speak of keys. -/
theorem State.hostSetKeys_inv {s : State} (h : s.Inv) (keys : Vector Bool 16) : (s.hostSetKeys keys).Inv :=
  ⟨h.memory, h.record, h.toneOff⟩

/-- Settles O19: by induction on the run. -/
theorem reachableStatesMeetInvariant : Obligations.ReachableStatesMeetInvariant := by
  unfold Obligations.ReachableStatesMeetInvariant
  intro s h
  induction h with
  | init image s hinit => exact State.init_inv hinit
  | step s t _ hstep ih => exact stepKeepsInvariant s t ih hstep
  | keys s _ k ih => exact State.hostSetKeys_inv ih k

end Sys2Proof.Machine
end
